-- ==== Sys2Proof/Word.lean ====
section
/-! DEFINITION. The fixed widths of the block (00_scope.md R5, R6): a byte, a CSR word, a 6-bit symbol
index, and a 7-bit entry of the symbol-to-index table. -/

namespace Sys2Proof

/-- "Byte" means an unsigned 8-bit value (R6). -/
abbrev Byte := BitVec 8

/-- CSRs are 32 bits wide (R5). -/
abbrev Word := BitVec 32

/-- A symbol index is 6 bits, with values 0 to 63 (R5). -/
abbrev Idx := BitVec 6

/-- One entry `V, IDX` of `symbol_to_index_lut`: bit 6 is `V`, bits 5:0 are `IDX` (R103). -/
abbrev LutEntry := BitVec 7

end Sys2Proof
end

