-- ==== Sys2Proof/Config.lean ====
section
/-! DEFINITION. The build-time parameters of 00_scope.md R5 and the free values of
93_implementation_defined.md U3 and U4. The parameters are configuration, not state (R34): no step
changes them. They travel in the field `cfg` of `State`, so that every statement holds for every value
of them (assumption 1). -/

namespace Sys2Proof

/-- `P_PAD_CHECK` (R5, U1). -/
inductive PadCheck where
  | strict
  | lenient
deriving DecidableEq, Repr

/-- `P_ERR_ORDER` (R5, U11). -/
inductive ErrOrder where
  | symbolFirst
  | lengthFirst
deriving DecidableEq, Repr

/-- The parameters of R5; `P_MAX_OUT` is derived. -/
structure Config where
  /-- `P_MAX_LEN`. -/
  maxLen   : Nat
  /-- `P_PAD_CHECK`. -/
  padCheck : PadCheck
  /-- `P_ERR_ORDER`. -/
  errOrder : ErrOrder
  /-- `P_WS_SET`, a set of byte values, held in rising order. -/
  wsSet    : List Byte
deriving DecidableEq, Repr

/-- `P_MAX_OUT = 4 * ceil(P_MAX_LEN / 3)` (R5). -/
def Config.maxOut (c : Config) : Nat := 4 * ((c.maxLen + 2) / 3)

/-- The configuration `State.reset` is written with: the defaults R5 gives for `P_PAD_CHECK`,
`P_ERR_ORDER` and `P_WS_SET`. DESIGN CHOICE (assumption 1): `P_MAX_LEN` is OPEN in R5 and 4096 is the
model's. -/
def Config.default : Config :=
  { maxLen := 4096, padCheck := .strict, errOrder := .symbolFirst,
    wsSet := [0x09, 0x0A, 0x0B, 0x0C, 0x0D, 0x20] }

/-- Free value (U3): what the never-written cell `IN_MEM[i]` holds since reset number `epoch`;
fixed per cell until written. No body: nothing can tell its value (assumption 3). -/
opaque Config.freeIn (epoch i : Nat) : Byte

/-- Free value (U4): what the `n`-th host read of an unspecified `OUT_MEM` cell returns
(assumption 4). -/
opaque Config.freeOut (n : Nat) : Byte

end Sys2Proof
end

