-- ==== Sys2Proof/Machine/State.lean ====
section
/-! DEFINITION. The state of the block (10_state.md R23), the host's bus accesses to it (20_memory.md,
R76), and the state right after reset (R200). Plain data throughout. -/

namespace Sys2Proof.Machine

/-- A byte buffer (`IN_MEM`, `OUT_MEM`): the cells that hold a known value, in strictly rising index
order. A cell that is not listed holds no known value (R28, R29; assumption 6). -/
abbrev Memory := List Host.Cell

/-- The width of a CSR access; only `word` is inside the interface (R51). -/
inductive Width where
  | byte
  | half
  | word
deriving DecidableEq, Repr

/-- One bus transaction of the host (R50 to R54, R76), or the reset event (R200). Buffer accesses move
one byte each (D23), so they carry no width. -/
inductive HostAccess where
  | csrRead  (width : Width) (off : Nat)
  | csrWrite (width : Width) (off : Nat) (v : Word)
  | inRead   (i : Nat)
  | inWrite  (i : Nat) (v : Byte)
  | outRead  (j : Nat)
  | outWrite (j : Nat) (v : Byte)
  | reset
deriving DecidableEq, Repr

/-- What a host read returned. -/
inductive Reply where
  | word (v : Word)
  | byte (v : Byte)
deriving DecidableEq, Repr

/-- The machine. `status`, `inLen`, `outLen`, `inMem` and `outMem` are the whole state of R23 (`CMD` has
no storage, R24). `cfg` is the fixed configuration (R34). The last four fields are the model's own:
two counters that free values are drawn with, the accesses the host has issued and not yet been served
(oldest first, R60), and what its reads returned (oldest first). -/
structure State where
  cfg      : Config
  status   : Word
  inLen    : Word
  outLen   : Word
  inMem    : Memory
  outMem   : Memory
  epoch    : Nat
  draws    : Nat
  pending  : List HostAccess
  replies  : List Reply
deriving DecidableEq, Repr

/-- Why a step could fault. The spec gives the block no fault at all: an error is a status code and
"never a trap" (60_exceptions.md, R181), and what lies outside the interface is refused (R205). So the
type has no constructor. -/
inductive Fault
deriving DecidableEq, Repr

/-- Why a step is refused. -/
inductive Refusal where
  /-- An arm of `exec` whose instruction has no meaning yet. No arm raises it. Safe. -/
  | notModelled (mnemonic : String)
  /-- The host's sub-word or misaligned CSR access (R51, U8). Safe: the run stops. -/
  | csrAccessShape
  /-- The host's IN access at an index of `P_MAX_LEN` or above (R53, U9). Safe: the run stops. -/
  | inIndexOutOfRange
  /-- The host's OUT access at an index of `P_MAX_OUT` or above (R54, U9). Safe: the run stops. -/
  | outIndexOutOfRange
  /-- The host's write to `IN_LEN` of a value above `P_MAX_LEN` (R26, U5). Safe: the run stops. -/
  | inLenOverRange
deriving DecidableEq, Repr

/-- The machine right after reset (R200): `STATUS.CODE = 0`, `IN_LEN = 0`, `OUT_LEN = 0`, no buffer cell
with a known value, and no host access pending. DESIGN CHOICE: `cfg` (assumption 1), and the two
counters at 0 (assumptions 3 and 4; no statement rests on them). -/
def State.reset : State :=
  { cfg := Config.default, status := 0, inLen := 0, outLen := 0, inMem := [], outMem := [],
    epoch := 0, draws := 0, pending := [], replies := [] }

end Sys2Proof.Machine
end

