-- ==== Sys2Proof/Machine/Tables.lean ====
section
/-! DEFINITION. The two table sub-blocks and the decoder's classification of a byte
(40_tables.md). Both tables are constant ROM: no operation changes them and reset does nothing to them
(R30, R31, R107, R200), so they are definitions and no fields of `State` (assumption 7). -/

namespace Sys2Proof.Machine

/-- A mapped value (R9): `Sym(i)` or `Pad`. -/
inductive MappedValue where
  | sym (i : Idx)
  | pad
deriving DecidableEq, Repr

/-- The contents of `ALPHABET_LUT`, the table of R100, index 0 first. -/
def alphabetLut : Vector Byte 64 :=
  ⟨#[0x41, 0x42, 0x43, 0x44, 0x45, 0x46, 0x47, 0x48] ++     -- A B C D E F G H
   #[0x49, 0x4A, 0x4B, 0x4C, 0x4D, 0x4E, 0x4F, 0x50] ++     -- I J K L M N O P
   #[0x51, 0x52, 0x53, 0x54, 0x55, 0x56, 0x57, 0x58] ++     -- Q R S T U V W X
   #[0x59, 0x5A, 0x61, 0x62, 0x63, 0x64, 0x65, 0x66] ++     -- Y Z a b c d e f
   #[0x67, 0x68, 0x69, 0x6A, 0x6B, 0x6C, 0x6D, 0x6E] ++     -- g h i j k l m n
   #[0x6F, 0x70, 0x71, 0x72, 0x73, 0x74, 0x75, 0x76] ++     -- o p q r s t u v
   #[0x77, 0x78, 0x79, 0x7A, 0x30, 0x31, 0x32, 0x33] ++     -- w x y z 0 1 2 3
   #[0x34, 0x35, 0x36, 0x37, 0x38, 0x39, 0x2B, 0x2F],       -- 4 5 6 7 8 9 + /
   rfl⟩

/-- `ALPHA(idx)` (R100): every 6-bit index has an entry. -/
def alpha (idx : Idx) : Byte := alphabetLut[idx.toNat]'(idx.isLt)

/-- The pad symbol `=` (R102). The encoder writes it directly, not through the table. -/
def padByte : Byte := 0x3D

/-- `SYMBOL_TO_INDEX_LUT[b]`, "built once from the alphabet" as R104 says: `V = 1` and the index `i`
where `ALPHA(i) = b` (unique, by R101), all zero where there is none. -/
def symbolToIndexLut (b : Byte) : LutEntry :=
  match alphabetLut.toList.findIdx? (fun s => s == b) with
  | some i => BitVec.ofNat 1 1 ++ BitVec.ofNat 6 i
  | none   => 0

/-- `S2I(b)` (R103). -/
def s2i (b : Byte) : LutEntry := symbolToIndexLut b

/-- `Classify(b)` (R105): the pad comparator first, then the table; `none` is `Invalid`. -/
def classify (b : Byte) : Option MappedValue :=
  if b = padByte then some .pad
  else
    let e := s2i b
    if e.extractLsb' 6 1 = 1 then some (.sym (e.extractLsb' 0 6))
    else none

end Sys2Proof.Machine
end

