-- ==== Sys2Proof/Machine/Flags.lean ====
section
/-! DEFINITION. The block's only condition code, `STATUS.CODE` (10_state.md R25, R32), the error kinds
(60_exceptions.md R180), and the checks that decide which one is reported (42_decoder.md R140 to R142). -/

namespace Sys2Proof.Machine

/-- The error kinds of R180. -/
inductive ErrKind where
  | noInput
  | malformedLength
  | invalidSymbol
  | invalidPadPlacement
  | badCommand
deriving DecidableEq, Repr

/-- The `STATUS.CODE` of each kind (R25, R180). -/
def ErrKind.code : ErrKind → BitVec 3
  | .noInput             => 2
  | .malformedLength     => 3
  | .invalidSymbol       => 4
  | .invalidPadPlacement => 5
  | .badCommand          => 6

/-- `CODE` of a success, `OK` (R25). -/
def okCode : BitVec 3 := 1

/-- The field `STATUS.CODE`, bits 2:0 (R25). -/
def State.code (s : State) : BitVec 3 := s.status.extractLsb' 0 3

/-- The word with `c` written to `STATUS.CODE` and bits 31:3 kept. -/
def setCode (w : Word) (c : BitVec 3) : Word := w.extractLsb' 3 29 ++ c

/-- `sym_bad` (R140): some mapped value is `Invalid`. -/
def symBad (m : List (Option MappedValue)) : Bool := m.any Option.isNone

/-- `len_bad` (R141): the length is no multiple of 4. -/
def lenBad (n : Nat) : Bool := n % 4 != 0

/-- `CheckInput` (R142): which first-pass error is raised, if any. -/
def checkInput (order : ErrOrder) (symBad lenBad : Bool) : Option ErrKind :=
  match order with
  | .symbolFirst =>
    if symBad then some .invalidSymbol else if lenBad then some .malformedLength else none
  | .lengthFirst =>
    if lenBad then some .malformedLength else if symBad then some .invalidSymbol else none

end Sys2Proof.Machine
end

