-- ==== Sys2Proof/Machine/Ops.lean ====
section
/-! DEFINITION. The named operations over the buffers and registers, and the two ways a command ends:
`raise` (60_exceptions.md R181) and `complete` (R182). -/

namespace Sys2Proof.Machine

/-- What a cell that is not listed reads as: no known value (R28, R29; assumption 6). -/
def Memory.unlisted : Option Byte := none

/-- The known value of cell `a`, if it has one. -/
def Memory.read? : Memory → Nat → Option Byte
  | [], _ => Memory.unlisted
  | (b, u) :: m, a => if a = b then some u else Memory.read? m a

/-- Set cell `a` to `v`, keeping the indices rising. -/
def Memory.write : Memory → Nat → Byte → Memory
  | [], a, v => [(a, v)]
  | (b, u) :: m, a, v =>
    if a < b then (a, v) :: (b, u) :: m
    else if a = b then (a, v) :: m
    else (b, u) :: Memory.write m a v

/-- The loop of `complete` (R182): `MemWrite(j, 1, out[j])` for the bytes `out`, from index `j` up. -/
def Memory.writeFrom (m : Memory) (j : Nat) : List Byte → Memory
  | [] => m
  | b :: out => Memory.writeFrom (m.write j b) (j + 1) out

/-- The canonical form: indices strictly rising. (No entry can equal what an unlisted cell reads as,
since that is no byte.) -/
abbrev Memory.wf (m : Memory) : Prop := (m.map Prod.fst).Pairwise (· < ·)

/-- `MemRead(i, 1)` (R8): the byte `IN_MEM[i]` holds; a cell the host has not written since reset holds
a fixed but unknown byte (U3, D30; assumption 3). -/
def memRead (s : State) (i : Nat) : Byte := (s.inMem.read? i).getD (Config.freeIn s.epoch i)

/-- `raise K()` (R181): `STATUS.CODE` is the kind's code, `OUT_LEN` is 0, every `OUT_MEM` cell becomes
unspecified, and nothing else changes. Nothing returns from an error (R184), so there is no operation
for that. -/
def raise (k : ErrKind) (s : State) : State :=
  { s with status := setCode s.status k.code, outLen := 0, outMem := [] }

/-- `complete(out)` (R182): `OUT_MEM[j] = out[j]`, every later cell is unspecified, `OUT_LEN = len(out)`
and `STATUS.CODE = 1`. -/
def complete (out : List Byte) (s : State) : State :=
  { s with status := setCode s.status okCode, outLen := BitVec.ofNat 32 out.length,
           outMem := Memory.writeFrom [] 0 out }

/-- A command's end from its result (R10): `OK(out)` completes, an error kind is raised. -/
def finish (r : Except ErrKind (List Byte)) (s : State) : State :=
  match r with
  | .ok out  => complete out s
  | .error k => raise k s

/-- The registers of the CSR space (R24 to R27). -/
inductive Csr where
  | cmd
  | status
  | inLen
  | outLen
deriving DecidableEq, Repr

/-- The CSR's byte offset (R51). -/
def csrOffset : Csr → Nat
  | .cmd    => 0x00
  | .status => 0x04
  | .inLen  => 0x08
  | .outLen => 0x0C

/-- The CSR at an offset; `none` is a reserved offset (R51, U6). -/
def csrAt (off : Nat) : Option Csr :=
  if off = 0x00 then some .cmd
  else if off = 0x04 then some .status
  else if off = 0x08 then some .inLen
  else if off = 0x0C then some .outLen
  else none

/-- A CSR access is a whole word at an offset that is a multiple of 4 (R51, R57). -/
def csrShapeOk (width : Width) (off : Nat) : Bool := width == .word && off % 4 == 0

/-- The word a CSR read returns (R24 to R27, R51, R52): `CMD` and reserved offsets read 0, and the
reserved bits 31:3 of `STATUS` read 0. -/
def csrValue (s : State) (off : Nat) : Word :=
  match csrAt off with
  | some .cmd    => 0
  | some .status => s.code.setWidth 32
  | some .inLen  => s.inLen
  | some .outLen => s.outLen
  | none         => 0

/-- Hand the host what its read returned. -/
def State.reply (s : State) (r : Reply) : State := { s with replies := s.replies ++ [r] }

/-- A host read of `OUT_MEM[j]` (R54): a specified cell returns its byte and an unspecified one any
byte, a new draw at each read (U4; assumption 4). -/
def outReadReply (s : State) (j : Nat) : State :=
  match s.outMem.read? j with
  | some b => s.reply (.byte b)
  | none   => { s with draws := s.draws + 1 }.reply (.byte (Config.freeOut s.draws))

/-- The reset event (R200): every piece of the block's state takes its reset value. The parameters stay,
and so do the host's own accesses and what it has read. The unknown contents of `IN_MEM` are new
ones (assumption 9). -/
def applyReset (s : State) : State :=
  { s with status := 0, inLen := 0, outLen := 0, inMem := [], outMem := [], epoch := s.epoch + 1 }

end Sys2Proof.Machine
end

