-- ==== Sys2Proof/Syntax.lean ====
section
/-! DEFINITION. The four commands of 30_encoding.md R71: one constructor per row of
spec/opcode_table.json. A command word carries no operand (R73). -/

namespace Sys2Proof

inductive Instr where
  /-- `ENCODE_BYTES` (R125). -/
  | encodeBytes
  /-- `DECODE_BYTES` (R150). -/
  | decodeBytes
  /-- `ENCODE_TEXT` (R171). -/
  | encodeText
  /-- `DECODE_TEXT` (R172). -/
  | decodeText
deriving DecidableEq, Repr

end Sys2Proof
end

