-- ==== Sys2Proof/WellFormed.lean ====
section
/-! DEFINITION. Well-formedness: of a command (R73: it has no operand, so every one is well formed), of
a configuration (R5), and of a host access (R205 duties 1 to 3). -/

namespace Sys2Proof

/-- A command word carries no operand field (R73): there is nothing to get wrong. -/
def Instr.wellFormed : Instr → Bool
  | .encodeBytes => true
  | .decodeBytes => true
  | .encodeText  => true
  | .decodeText  => true

/-- Legal parameters (R5): `P_MAX_LEN >= 4`; `P_WS_SET` contains 0x20, no byte of the alphabet and not
0x3D. DEDUCED (assumption 2): `P_MAX_OUT` fits the 32 bits of `OUT_LEN` (R27). The model's own: the set
is listed in rising order. -/
abbrev Config.wellFormed (c : Config) : Prop :=
  4 ≤ c.maxLen ∧ c.maxOut < 2 ^ 32 ∧ 0x20 ∈ c.wsSet ∧
  (∀ b ∈ c.wsSet, Machine.classify b = none) ∧ c.wsSet.Pairwise (· < ·)

end Sys2Proof

namespace Sys2Proof.Machine

/-- A host access that keeps the host's duties 1 to 3 of R205 for the parameters `c`. -/
def HostAccess.wellFormed (c : Config) : HostAccess → Bool
  | .csrRead w off    => csrShapeOk w off
  | .csrWrite w off v => csrShapeOk w off && !(off == csrOffset .inLen && decide (c.maxLen < v.toNat))
  | .inRead i         => decide (i < c.maxLen)
  | .inWrite i _      => decide (i < c.maxLen)
  | .outRead j        => decide (j < c.maxOut)
  | .outWrite j _     => decide (j < c.maxOut)
  | .reset            => true

end Sys2Proof.Machine
end

