-- ==== Sys2Proof/Decode.lean ====
section
/-! DEFINITION. Decoding a command word and encoding a command (30_encoding.md R70 to R72). The CSR bus
moves whole 32-bit words and has no byte order (R56), so the decoder reads a word, not bytes. -/

namespace Sys2Proof

/-- Why a word spells no command (R72). Both raise `BadCommand`. -/
inductive DecodeReject where
  /-- `RSVD = 0` and `OP` in 0, 5, 6, 7. -/
  | reservedOp
  /-- Some bit of `RSVD`, bits 31:3, is not 0. -/
  | reservedBits
deriving DecidableEq, Repr

/-- The command a word spells (R72): a word selects an operation only if it matches one of the four
command words exactly, in all 32 bits. -/
def decode (w : Word) : Except DecodeReject Instr :=
  if w = 0x00000001 then .ok .encodeBytes
  else if w = 0x00000002 then .ok .decodeBytes
  else if w = 0x00000003 then .ok .encodeText
  else if w = 0x00000004 then .ok .decodeText
  else if w.extractLsb' 3 29 = 0 then .error .reservedOp
  else .error .reservedBits

/-- The field `OP`, bits 2:0, of each command (R71). -/
def opcode : Instr → BitVec 3
  | .encodeBytes => 1
  | .decodeBytes => 2
  | .encodeText  => 3
  | .decodeText  => 4

/-- The command word (R70): `RSVD = 0` in bits 31:3 and `OP` in bits 2:0. -/
def encode (i : Instr) : Word := (0 : BitVec 29) ++ opcode i

/-- The word of an opcode-table row: the low `nbits` bits of `w`, the rest 0. -/
def tableWord (nbits w : Nat) : Word := BitVec.ofNat 32 (w % 2 ^ nbits)

/-- What the decoder reads from an opcode-table row's bits. -/
def decodeTableWord (nbits w : Nat) : Option Instr :=
  match decode (tableWord nbits w) with
  | .ok i    => some i
  | .error _ => none

end Sys2Proof
end

