-- ==== Sys2Proof/Machine/Operands.lean ====
section
/-! DEFINITION. The one operand form: a command word carries no operand, and every command's input is
the sequence `IN_MEM[0 .. IN_LEN-1]` (30_encoding.md R73, R74; 20_memory.md R66). Also the blank test of
the text commands (43_text_commands.md R170). -/

namespace Sys2Proof.Machine

/-- `inp = [MemRead(0,1), ..., MemRead(n-1,1)]` with `n = CSR[IN_LEN]` (R74). -/
def inputBytes (s : State) : List Byte := (List.range s.inLen.toNat).map (memRead s)

/-- `Blank(inp)` (R170) for the whitespace set `ws`. -/
def blank (ws : List Byte) (inp : List Byte) : Bool :=
  inp.length == 0 || inp.all (fun b => ws.contains b)

end Sys2Proof.Machine
end

