-- ==== Sys2Proof/Machine/Decoder.lean ====
section
/-! DEFINITION. The decode datapath (sub-block `base64_decoder`) and `DECODE_BYTES` (42_decoder.md). -/

namespace Sys2Proof.Machine

/-- Four mapped values `(v0, v1, v2, v3)` (R143). -/
structure Quartet where
  v0 : MappedValue
  v1 : MappedValue
  v2 : MappedValue
  v3 : MappedValue
deriving DecidableEq, Repr

/-- `MapPass` (R140): the mapped values, and whether some byte is `Invalid`. -/
def mapPass (inp : List Byte) : List (Option MappedValue) × Bool :=
  let m := inp.map classify
  (m, symBad m)

/-- Quartet windowing (R143): Quartet `k` is `(m[4k], m[4k+1], m[4k+2], m[4k+3])`. `CheckInput` has made
the length a multiple of 4, so nothing is left over. -/
def quartets : List MappedValue → List Quartet
  | v0 :: v1 :: v2 :: v3 :: rest => ⟨v0, v1, v2, v3⟩ :: quartets rest
  | _ => []

/-- A pad in a leading position (R144), rejected in both modes. -/
def leadingPad (q : Quartet) : Bool := q.v0 == .pad || q.v1 == .pad

/-- The strict checks (R145): a pad followed by a symbol in any Quartet, or a pad in a Quartet that is
not the final one. -/
def strictPadFault (qs : List Quartet) : Bool :=
  qs.any (fun q => q.v2 == .pad && q.v3 != .pad) ||
  qs.dropLast.any (fun q => q.v2 == .pad || q.v3 == .pad)

/-- `byte0 = (i0 << 2) | (i1 >> 4)` (R146). -/
def decByte0 (i0 i1 : Idx) : Byte := (i0.setWidth 8 <<< 2) ||| (i1.setWidth 8 >>> 4)

/-- `byte1 = ((i1 & 0xF) << 4) | (i2 >> 2)` (R146). -/
def decByte1 (i1 i2 : Idx) : Byte := ((i1.setWidth 8 &&& 0xF) <<< 4) ||| (i2.setWidth 8 >>> 2)

/-- `byte2 = ((i2 & 0x3) << 6) | (i3 & 0x3F)` (R146). -/
def decByte2 (i2 i3 : Idx) : Byte := ((i2.setWidth 8 &&& 0x3) <<< 6) ||| (i3.setWidth 8 &&& 0x3F)

/-- `DecodeGroup` (R146, R147, R148): one Quartet to its Triplet. A pad in position 2 stops the Triplet
at 1 byte whatever `v3` is. DESIGN CHOICE (assumption 11): a Quartet that `leadingPad` rejects never
comes here, and gives no byte. -/
def decodeGroup (q : Quartet) : List Byte :=
  match q.v0, q.v1 with
  | .sym i0, .sym i1 =>
    match q.v2 with
    | .pad => [decByte0 i0 i1]
    | .sym i2 =>
      match q.v3 with
      | .pad => [decByte0 i0 i1, decByte1 i1 i2]
      | .sym i3 => [decByte0 i0 i1, decByte1 i1 i2, decByte2 i2 i3]
  | _, _ => []

/-- `DecodeSeq` (R149): every placement check before any output, then the Triplets in order. -/
def decodeSeq (padCheck : PadCheck) (m : List MappedValue) : Except ErrKind (List Byte) :=
  let qs := quartets m
  if qs.any leadingPad then .error .invalidPadPlacement
  else if padCheck = .strict ∧ strictPadFault qs then .error .invalidPadPlacement
  else .ok (qs.flatMap decodeGroup)

/-- The port of `base64_decoder` (R78, R150): the output sequence, or the error kind, in the order of
R150 and R183. -/
def base64Decoder (c : Config) (inp : List Byte) : Except ErrKind (List Byte) :=
  if inp.length = 0 then .error .noInput
  else
    let (m, bad) := mapPass inp
    match checkInput c.errOrder bad (lenBad inp.length) with
    | some k => .error k
    | none   => decodeSeq c.padCheck (m.filterMap id)

/-- `DECODE_BYTES` (R150). -/
def execDecodeBytes (s : State) : Host.Outcome State Fault Refusal :=
  .next (finish (base64Decoder s.cfg (inputBytes s)) s)

end Sys2Proof.Machine
end

