-- ==== Sys2Proof/Machine/Encoder.lean ====
section
/-! DEFINITION. The encode datapath (sub-block `base64_encoder`) and `ENCODE_BYTES` (41_encoder.md). -/

namespace Sys2Proof.Machine

/-- The index `a >> 2` of symbol 0 (R120 to R122). -/
def encIdx0 (a : Byte) : Idx := (a >>> 2).setWidth 6

/-- The index `((a & 0x3) << 4) | (b >> 4)` of symbol 1 (R120, R121). -/
def encIdx1 (a b : Byte) : Idx := (((a &&& 0x3) <<< 4) ||| (b >>> 4)).setWidth 6

/-- The index `((b & 0xF) << 2) | (c >> 6)` of symbol 2 (R120). -/
def encIdx2 (b c : Byte) : Idx := (((b &&& 0xF) <<< 2) ||| (c >>> 6)).setWidth 6

/-- The index `c & 0x3F` of symbol 3 (R120). -/
def encIdx3 (c : Byte) : Idx := (c &&& 0x3F).setWidth 6

/-- `EncodeGroup3` (R120). -/
def encodeGroup3 (a b c : Byte) : List Byte :=
  [alpha (encIdx0 a), alpha (encIdx1 a b), alpha (encIdx2 b c), alpha (encIdx3 c)]

/-- `EncodeGroup2` (R121): symbol 2 has the index `(b & 0xF) << 2`. -/
def encodeGroup2 (a b : Byte) : List Byte :=
  [alpha (encIdx0 a), alpha (encIdx1 a b), alpha (((b &&& 0xF) <<< 2).setWidth 6), padByte]

/-- `EncodeGroup1` (R122): symbol 1 has the index `(a & 0x3) << 4`. -/
def encodeGroup1 (a : Byte) : List Byte :=
  [alpha (encIdx0 a), alpha (((a &&& 0x3) <<< 4).setWidth 6), padByte, padByte]

/-- `EncodeSeq` (R123): non-overlapping windows of 3 bytes in input order, the last of 1, 2 or 3 bytes;
no window of 0 bytes is formed. -/
def encodeSeq : List Byte → List Byte
  | a :: b :: c :: rest => encodeGroup3 a b c ++ encodeSeq rest
  | [a, b] => encodeGroup2 a b
  | [a] => encodeGroup1 a
  | [] => []

/-- The port of `base64_encoder` (R78, R125): the output sequence, or `NO_INPUT`. -/
def base64Encoder (inp : List Byte) : Except ErrKind (List Byte) :=
  if inp.length = 0 then .error .noInput else .ok (encodeSeq inp)

/-- `ENCODE_BYTES` (R125). -/
def execEncodeBytes (s : State) : Host.Outcome State Fault Refusal :=
  .next (finish (base64Encoder (inputBytes s)) s)

end Sys2Proof.Machine
end

