-- ==== Sys2Proof/Machine/Text.lean ====
section
/-! DEFINITION. The text-typed commands (43_text_commands.md). They differ from the byte commands only
in a blank input, which they pass through unchanged. Text is bytes (R173). -/

namespace Sys2Proof.Machine

/-- `ENCODE_TEXT` (R171). -/
def execEncodeText (s : State) : Host.Outcome State Fault Refusal :=
  let inp := inputBytes s
  if blank s.cfg.wsSet inp then .next (complete inp s)
  else .next (complete (encodeSeq inp) s)

/-- `DECODE_TEXT` (R172): for a non-blank input exactly `DECODE_BYTES`. -/
def execDecodeText (s : State) : Host.Outcome State Fault Refusal :=
  let inp := inputBytes s
  if blank s.cfg.wsSet inp then .next (complete inp s)
  else .next (finish (base64Decoder s.cfg inp) s)

end Sys2Proof.Machine
end

