-- ==== Sys2Proof/Machine/Dispatch.lean ====
section
/-! DEFINITION. Which meaning each command has. -/

namespace Sys2Proof.Machine

def exec (i : Instr) (s : State) : Host.Outcome State Fault Refusal :=
  match i with
  | .encodeBytes => Sys2Proof.Machine.execEncodeBytes s
  | .decodeBytes => Sys2Proof.Machine.execDecodeBytes s
  | .encodeText => Sys2Proof.Machine.execEncodeText s
  | .decodeText => Sys2Proof.Machine.execDecodeText s

end Sys2Proof.Machine
end

