-- ==== Sys2Proof/Machine/Bus.lean ====
section
/-! DEFINITION. What one bus transaction of the host does (20_memory.md R51 to R54, 30_encoding.md R72).
A command runs entirely within the host's write to `CMD` (10_state.md R20, R24). -/

namespace Sys2Proof.Machine

/-- A write of the word `w` to `CMD` (R24, R72): exactly one command, or `BadCommand`. -/
def writeCmd (w : Word) (s : State) : Host.Outcome State Fault Refusal :=
  match decode w with
  | .ok i    => exec i s
  | .error _ => .next (raise .badCommand s)

/-- A write to `IN_LEN` (R26): a value above `P_MAX_LEN` is refused (D15, U5). -/
def writeInLen (v : Word) (s : State) : Host.Outcome State Fault Refusal :=
  if v.toNat ≤ s.cfg.maxLen then .next { s with inLen := v } else .refused .inLenOverRange

/-- A whole-word CSR write at an aligned offset (R51): writes to `STATUS`, `OUT_LEN` and the reserved
offsets are ignored. -/
def writeCsr (off : Nat) (v : Word) (s : State) : Host.Outcome State Fault Refusal :=
  match csrAt off with
  | some .cmd    => writeCmd v s
  | some .status => .next s
  | some .inLen  => writeInLen v s
  | some .outLen => .next s
  | none         => .next s

/-- One access of the host. What lies outside the interface is refused (R205 duties 1 to 3). -/
def hostAccess (a : HostAccess) (s : State) : Host.Outcome State Fault Refusal :=
  match a with
  | .csrRead w off =>
    if csrShapeOk w off then .next (s.reply (.word (csrValue s off))) else .refused .csrAccessShape
  | .csrWrite w off v =>
    if csrShapeOk w off then writeCsr off v s else .refused .csrAccessShape
  | .inRead i =>
    if i < s.cfg.maxLen then .next (s.reply (.byte (memRead s i))) else .refused .inIndexOutOfRange
  | .inWrite i v =>
    if i < s.cfg.maxLen then .next { s with inMem := s.inMem.write i v }
    else .refused .inIndexOutOfRange
  | .outRead j =>
    if j < s.cfg.maxOut then .next (outReadReply s j) else .refused .outIndexOutOfRange
  | .outWrite j _ =>
    if j < s.cfg.maxOut then .next s else .refused .outIndexOutOfRange
  | .reset => .next (applyReset s)

/-- The next transaction in the order the host issues them (R60). With none pending the block holds its
state unchanged (R192; assumption 5). -/
def serveHost (s : State) : Host.Outcome State Fault Refusal :=
  match s.pending with
  | []        => .next s
  | a :: rest => hostAccess a { s with pending := rest }

/-- The state with a write of `w` to `CMD` as the host's next access. -/
def issueCommand (w : Word) (s : State) : State :=
  { s with pending := .csrWrite .word (csrOffset .cmd) w :: s.pending }

end Sys2Proof.Machine
end

