-- ==== Sys2Proof/Machine/Step.lean ====
section
/-! DEFINITION. One step of the machine: the next bus transaction of the host, and the command it
performs if it is a write to `CMD` (10_state.md R20). -/

namespace Sys2Proof.Machine

def step (s : State) : Host.Outcome State Fault Refusal := serveHost s

/-- The block fetches no instruction (R22): a command is the host's write to `CMD`. So the word is put
where the machine takes its next command from, as the host's next access; everything else stays
(assumption 5). -/
def State.withFetchWord (s : State) (nbits w : Nat) : State := issueCommand (tableWord nbits w) s

end Sys2Proof.Machine
end

