-- ==== Sys2Proof/Machine/HostOps.lean ====
section
/-! DEFINITION. The host notation and its pseudo-operations as lists of bus transactions
(30_encoding.md R76, R77). -/

namespace Sys2Proof.Machine

/-- `wr <CSR>, <v>` (R76). -/
def wr (c : Csr) (v : Word) : HostAccess := .csrWrite .word (csrOffset c) v

/-- `rd <CSR>` (R76). -/
def rd (c : Csr) : HostAccess := .csrRead .word (csrOffset c)

/-- `wrb IN[i], b0` up to the last byte, from index `i` on. -/
def wrbFrom (i : Nat) : List Byte → List HostAccess
  | [] => []
  | b :: bs => .inWrite i b :: wrbFrom (i + 1) bs

/-- `load [b0, ..., b(n-1)]` (R77). -/
def load (bs : List Byte) : List HostAccess :=
  wrbFrom 0 bs ++ [wr .inLen (BitVec.ofNat 32 bs.length)]

/-- The ASCII code of a character (R77, G1): the character's number, where ASCII has the character
(assumption 16). -/
def asciiCode (c : Char) : Option Byte :=
  if c.toNat < 0x80 then some (BitVec.ofNat 8 c.toNat) else none

/-- The ASCII codes of the characters, in order; none where one of them has no code. -/
def asciiCodes (chars : String) : Option (List Byte) := chars.toList.mapM asciiCode

/-- `load "<chars>"` (R77): `load` of the ASCII codes of the characters. A text with a character that has
no ASCII code has no expansion (assumption 17). -/
def loadChars (chars : String) : Option (List HostAccess) := (asciiCodes chars).map load

/-- `run <MNEMONIC>` (R77). -/
def runCommand (i : Instr) : List HostAccess := [wr .cmd (encode i)]

/-- `result` (R77), where the host reads `m` from `OUT_LEN`. -/
def result (m : Nat) : List HostAccess :=
  [rd .status, rd .outLen] ++ (List.range m).map HostAccess.outRead

/-- The pairs `rdb OUT[j] -> v`, `wrb IN[j], v` of `copyback`, from index `j` on. -/
def copyFrom (j : Nat) : List Byte → List HostAccess
  | [] => []
  | v :: vs => .outRead j :: .inWrite j v :: copyFrom (j + 1) vs

/-- `copyback` (R77), where the host reads the bytes `vs`, as many as `OUT_LEN` says. -/
def copyback (vs : List Byte) : List HostAccess :=
  rd .outLen :: copyFrom 0 vs ++ [wr .inLen (BitVec.ofNat 32 vs.length)]

end Sys2Proof.Machine
end

