-- ==== Sys2Proof/Safety.lean ====
section
/-! DEFINITION. The terms the statements are written in: the states that can be met (`Inv`), what a
command leaves unchanged, the two ways it ends, and the causes of an error by input index. -/

namespace Sys2Proof.Machine

/-- The invariant of the machine: legal parameters (R5); `STATUS[31:3] = 0` and `CODE = 7` never
produced (R25); `IN_LEN` and `OUT_LEN` in their legal ranges (R26, R27); the input buffer canonical and
inside its range (R28); the specified cells of `OUT_MEM` exactly those below `OUT_LEN` (R29); no output
but after `OK` (R27). -/
structure Inv (s : State) : Prop where
  cfgOk      : s.cfg.wellFormed
  rsvdZero   : s.status.extractLsb' 3 29 = 0
  codeLegal  : s.code ≠ 7
  inLenOk    : s.inLen.toNat ≤ s.cfg.maxLen
  inMemWf    : s.inMem.wf
  inMemRange : ∀ c ∈ s.inMem, c.1 < s.cfg.maxLen
  outLenOk   : s.outLen.toNat ≤ s.cfg.maxOut
  outCells   : s.outMem.map Prod.fst = List.range s.outLen.toNat
  noOutput   : s.code ≠ okCode → s.outLen = 0

/-- What no command changes (R35, R66, R181): the parameters, `IN_LEN`, every byte of `IN_MEM`, the
reserved bits of `STATUS`, and everything outside the block. -/
structure CommandFrame (s t : State) : Prop where
  cfg     : t.cfg = s.cfg
  inLen   : t.inLen = s.inLen
  inMem   : t.inMem = s.inMem
  inBytes : ∀ i, memRead t i = memRead s i
  rsvd    : t.status.extractLsb' 3 29 = s.status.extractLsb' 3 29
  epoch   : t.epoch = s.epoch
  draws   : t.draws = s.draws
  pending : t.pending = s.pending
  replies : t.replies = s.replies

/-- A command went from `s` to `t` by `complete(out)` (R182): cell `j` of `OUT_MEM` is `out[j]`, and
unspecified from `len(out)` on. -/
structure Completed (s t : State) (out : List Byte) : Prop where
  code   : t.code = 1
  outLen : t.outLen = BitVec.ofNat 32 out.length
  bytes  : ∀ j, t.outMem.read? j = out[j]?
  frame  : CommandFrame s t

/-- A command went from `s` to `t` by `raise` with the code `c` (R181): no output. -/
structure Raised (s t : State) (c : BitVec 3) : Prop where
  code   : t.code = c
  outLen : t.outLen = 0
  bytes  : ∀ j, t.outMem.read? j = none
  frame  : CommandFrame s t

/-- Every input byte is whitespace; true of the empty input (R170). -/
abbrev BlankInput (s : State) : Prop := ∀ i < s.inLen.toNat, memRead s i ∈ s.cfg.wsSet

/-- `sym_bad` (R140), by index. -/
abbrev SymBad (s : State) : Prop := ∃ i < s.inLen.toNat, classify (memRead s i) = none

/-- `len_bad` (R141). -/
abbrev LenBad (s : State) : Prop := s.inLen.toNat % 4 ≠ 0

/-- Input symbol `j` of Quartet `k` is the pad symbol. -/
abbrev PadAt (s : State) (k j : Nat) : Prop := memRead s (4 * k + j) = 0x3D

/-- Some Quartet fails R144, or R145 under `STRICT`. -/
abbrev PadBad (s : State) : Prop :=
  ∃ k < s.inLen.toNat / 4,
    (PadAt s k 0 ∨ PadAt s k 1) ∨
    (s.cfg.padCheck = .strict ∧
      ((PadAt s k 2 ∧ ¬ PadAt s k 3) ∨
       (k ≠ s.inLen.toNat / 4 - 1 ∧ (PadAt s k 2 ∨ PadAt s k 3))))

/-- The mapped value of input byte `i`, where it is valid. -/
def mappedAt (s : State) (i : Nat) : MappedValue := (classify (memRead s i)).getD .pad

/-- Quartet `k` of a valid input (R143). -/
def quartetAt (s : State) (k : Nat) : Quartet :=
  ⟨mappedAt s (4 * k), mappedAt s (4 * k + 1), mappedAt s (4 * k + 2), mappedAt s (4 * k + 3)⟩

/-- The block's own state is the same in `s` and `t` (R23). -/
structure SameBlock (s t : State) : Prop where
  cfg    : t.cfg = s.cfg
  status : t.status = s.status
  inLen  : t.inLen = s.inLen
  outLen : t.outLen = s.outLen
  inMem  : t.inMem = s.inMem
  outMem : t.outMem = s.outMem
  epoch  : t.epoch = s.epoch

end Sys2Proof.Machine
end

