-- ==== Sys2Proof/Certificates/Slice0/Obligations.lean ====
section
/-! DEFINITION. The statements for the provers. `s` is any state unless a hypothesis says otherwise, so
each holds for every value of the parameters of R5 (the field `cfg`) and of the free values. -/

open Sys2Proof Sys2Proof.Machine

-- ## Command encoding (30_encoding.md)

/-- R71: the four command words, and the reserved values of `OP`. -/
def Obligations.CommandWordsOfTheOpcodeMap : Prop :=
  decode 0x00000001 = .ok .encodeBytes ∧ decode 0x00000002 = .ok .decodeBytes ∧
  decode 0x00000003 = .ok .encodeText ∧ decode 0x00000004 = .ok .decodeText ∧
  (∀ op : BitVec 3, op = 0 ∨ op = 5 ∨ op = 6 ∨ op = 7 →
    decode (op.setWidth 32) = .error .reservedOp) ∧
  encode .encodeBytes = 0x00000001 ∧ encode .decodeBytes = 0x00000002 ∧
  encode .encodeText = 0x00000003 ∧ encode .decodeText = 0x00000004

/-- R70, R71: a word spells a command exactly when `RSVD` (bits 31:3) is 0 and `OP` (bits 2:0) is that
command's opcode. -/
def Obligations.DecodeReadsOpAndRsvd : Prop :=
  ∀ (w : Word) (i : Instr),
    decode w = .ok i ↔ w.extractLsb' 3 29 = 0 ∧ w.extractLsb' 0 3 = opcode i

/-- Every command's word decodes to it, and no other word does. -/
def Obligations.DecodeEncodeRoundTrip : Prop :=
  ∀ i : Instr, decode (encode i) = .ok i ∧ ∀ w : Word, decode w = .ok i → w = encode i

/-- R72: what a write of any word to `CMD` does. (That the write is the first of `pending` is the
model's form of the bus, assumption 5.) -/
def Obligations.CmdWriteRunsOrIsBadCommand : Prop :=
  ∀ (s : State) (w : Word) (rest : List HostAccess),
    s.pending = .csrWrite .word 0x00 w :: rest →
    (w = 0x00000001 → step s = exec .encodeBytes { s with pending := rest }) ∧
    (w = 0x00000002 → step s = exec .decodeBytes { s with pending := rest }) ∧
    (w = 0x00000003 → step s = exec .encodeText { s with pending := rest }) ∧
    (w = 0x00000004 → step s = exec .decodeText { s with pending := rest }) ∧
    (w ≠ 0x00000001 → w ≠ 0x00000002 → w ≠ 0x00000003 → w ≠ 0x00000004 →
      ∃ t, step s = .next t ∧ Raised { s with pending := rest } t 6)

/-- A step runs the decoded command. The block fetches nothing (R22): when the host's next access is a
write to `CMD` of a word that decodes to `i`, the step takes that access off the queue and is `exec i`. -/
def Obligations.StepRunsTheDecodedCommand : Prop :=
  ∀ (s : State) (w : Word) (i : Instr) (rest : List HostAccess),
    s.pending = .csrWrite .word 0x00 w :: rest → decode w = .ok i →
    step s = exec i { s with pending := rest }

/-- The host's next command is the one placed by `withFetchWord` (the model's interface, assumption 5). -/
def Obligations.FetchWordIsTheNextCommand : Prop :=
  ∀ (s : State) (nbits w : Nat) (i : Instr),
    decodeTableWord nbits w = some i → step (s.withFetchWord nbits w) = exec i s

-- ## The tables (40_tables.md)

/-- R100: the contents of `alphabet_lut`, in closed form; no entry is the pad byte. -/
def Obligations.AlphabetLutContents : Prop :=
  ∀ i : Idx,
    (i.toNat ≤ 25 → (alpha i).toNat = 0x41 + i.toNat) ∧
    (26 ≤ i.toNat → i.toNat ≤ 51 → (alpha i).toNat = 0x61 + (i.toNat - 26)) ∧
    (52 ≤ i.toNat → i.toNat ≤ 61 → (alpha i).toNat = 0x30 + (i.toNat - 52)) ∧
    (i.toNat = 62 → alpha i = 0x2B) ∧ (i.toNat = 63 → alpha i = 0x2F) ∧ alpha i ≠ 0x3D

/-- R101: the 64 entries are pairwise distinct. -/
def Obligations.AlphabetIsInjective : Prop :=
  ∀ i j : Idx, alpha i = alpha j → i = j

/-- R104: the contents of `symbol_to_index_lut`: the construction from the alphabet, the byte ranges,
and the count of entries with `V = 1`. -/
def Obligations.SymbolToIndexLutContents : Prop :=
  (∀ b : Byte,
    (∀ i : Idx, alpha i = b → s2i b = (1 : BitVec 1) ++ i) ∧
    ((∀ i : Idx, alpha i ≠ b) → s2i b = 0) ∧
    (0x41 ≤ b.toNat → b.toNat ≤ 0x5A → (s2i b).toNat = 64 + (b.toNat - 0x41)) ∧
    (0x61 ≤ b.toNat → b.toNat ≤ 0x7A → (s2i b).toNat = 64 + (b.toNat - 0x61 + 26)) ∧
    (0x30 ≤ b.toNat → b.toNat ≤ 0x39 → (s2i b).toNat = 64 + (b.toNat - 0x30 + 52)) ∧
    (b = 0x2B → (s2i b).toNat = 64 + 62) ∧ (b = 0x2F → (s2i b).toNat = 64 + 63) ∧
    (¬ (0x41 ≤ b.toNat ∧ b.toNat ≤ 0x5A) → ¬ (0x61 ≤ b.toNat ∧ b.toNat ≤ 0x7A) →
      ¬ (0x30 ≤ b.toNat ∧ b.toNat ≤ 0x39) → b ≠ 0x2B → b ≠ 0x2F → s2i b = 0)) ∧
  (List.range 256).countP (fun n => (s2i (BitVec.ofNat 8 n)).extractLsb' 6 1 == 1) = 64

/-- R105: the three outcomes of `Classify`, in terms of the alphabet. -/
def Obligations.ClassifySortsEveryByte : Prop :=
  ∀ b : Byte,
    (classify b = some .pad ↔ b = 0x3D) ∧
    (∀ i : Idx, classify b = some (.sym i) ↔ b ≠ 0x3D ∧ s2i b = (1 : BitVec 1) ++ i) ∧
    (classify b = none ↔ b ≠ 0x3D ∧ (s2i b).extractLsb' 6 1 = 0)

/-- R106: the inverse law of the two tables. -/
def Obligations.TablesAreInverse : Prop :=
  (∀ i : Idx, s2i (alpha i) = (1 : BitVec 1) ++ i ∧ classify (alpha i) = some (.sym i)) ∧
  (∀ (b : Byte) (i : Idx), classify b = some (.sym i) → alpha i = b)

-- ## The encoder (41_encoder.md)

/-- R120 to R122: each symbol of a group carries its six bits of the 24-bit value `{a, b, c}`; a missing
byte counts as 0 in the symbols that are written, and pads stand for the others. -/
def Obligations.EncodeGroupsTakeSixBitsEach : Prop :=
  ∀ a b c : Byte,
    (let g : BitVec 24 := a ++ b ++ c
     encodeGroup3 a b c = [alpha (g.extractLsb' 18 6), alpha (g.extractLsb' 12 6),
       alpha (g.extractLsb' 6 6), alpha (g.extractLsb' 0 6)]) ∧
    (let g : BitVec 24 := a ++ b ++ (0 : Byte)
     encodeGroup2 a b = [alpha (g.extractLsb' 18 6), alpha (g.extractLsb' 12 6),
       alpha (g.extractLsb' 6 6), 0x3D]) ∧
    (let g : BitVec 24 := a ++ (0 : Byte) ++ (0 : Byte)
     encodeGroup1 a = [alpha (g.extractLsb' 18 6), alpha (g.extractLsb' 12 6), 0x3D, 0x3D])

/-- R126: every index formula of R120 to R122 has a value in 0..63, so the 6-bit index is the whole
formula; and every byte of an `ENCODE_BYTES` output is an alphabet symbol or the pad. -/
def Obligations.EncodeIndexRangeAndClosure : Prop :=
  (∀ a b c : Byte,
    ((encIdx0 a).toNat = a.toNat >>> 2 ∧ a.toNat >>> 2 ≤ 63) ∧
    ((encIdx1 a b).toNat = ((a.toNat &&& 0x3) <<< 4) ||| (b.toNat >>> 4) ∧
      ((a.toNat &&& 0x3) <<< 4) ||| (b.toNat >>> 4) ≤ 63) ∧
    ((encIdx2 b c).toNat = ((b.toNat &&& 0xF) <<< 2) ||| (c.toNat >>> 6) ∧
      ((b.toNat &&& 0xF) <<< 2) ||| (c.toNat >>> 6) ≤ 63) ∧
    ((encIdx3 c).toNat = c.toNat &&& 0x3F ∧ c.toNat &&& 0x3F ≤ 63) ∧
    ((b.toNat &&& 0xF) <<< 2 ≤ 63 ∧ ∃ i : Idx, i.toNat = (b.toNat &&& 0xF) <<< 2 ∧
      (encodeGroup2 a b)[2]? = some (alpha i)) ∧
    ((a.toNat &&& 0x3) <<< 4 ≤ 63 ∧ ∃ i : Idx, i.toNat = (a.toNat &&& 0x3) <<< 4 ∧
      (encodeGroup1 a)[1]? = some (alpha i))) ∧
  (∀ s : State, ∃ t, exec .encodeBytes s = .next t ∧
    ∀ j x, t.outMem.read? j = some x → (∃ i : Idx, x = alpha i) ∨ x = 0x3D)

/-- R123: Quartet `k` of the output is the group transform of window `k`, for every window; there are
`ceil(n/3)` of them, and only the last can be short. -/
def Obligations.EncodeSeqByWindows : Prop :=
  ∀ inp : List Byte,
    (encodeSeq inp).length = 4 * ((inp.length + 2) / 3) ∧
    ∀ k, 3 * k < inp.length →
      (3 ≤ inp.length - 3 * k → ((encodeSeq inp).drop (4 * k)).take 4 =
        encodeGroup3 (inp.getD (3 * k) 0) (inp.getD (3 * k + 1) 0) (inp.getD (3 * k + 2) 0)) ∧
      (inp.length - 3 * k = 2 → ((encodeSeq inp).drop (4 * k)).take 4 =
        encodeGroup2 (inp.getD (3 * k) 0) (inp.getD (3 * k + 1) 0)) ∧
      (inp.length - 3 * k = 1 → ((encodeSeq inp).drop (4 * k)).take 4 =
        encodeGroup1 (inp.getD (3 * k) 0)) ∧
      (inp.length - 3 * k < 3 → k = (inp.length + 2) / 3 - 1)

/-- R124: the length law and the padding law, and the bound by `P_MAX_OUT`. -/
def Obligations.EncodeLengthAndPaddingLaws : Prop :=
  ∀ (c : Config) (inp : List Byte), 1 ≤ inp.length →
    (encodeSeq inp).length = 4 * ((inp.length + 2) / 3) ∧
    (inp.length ≤ c.maxLen → (encodeSeq inp).length ≤ c.maxOut) ∧
    (inp.length % 3 = 0 → (0x3D : Byte) ∉ encodeSeq inp) ∧
    (inp.length % 3 = 1 → ∃ out, encodeSeq inp = out ++ [0x3D, 0x3D] ∧ (0x3D : Byte) ∉ out) ∧
    (inp.length % 3 = 2 → ∃ out, encodeSeq inp = out ++ [0x3D] ∧ (0x3D : Byte) ∉ out)

/-- R125: `ENCODE_BYTES` raises `NoInput` exactly when `IN_LEN = 0` and otherwise completes with
`EncodeSeq` of the input; a full input buffer gives `OUT_LEN = P_MAX_OUT`. -/
def Obligations.EncodeBytesResult : Prop :=
  ∀ s : State,
    (s.inLen = 0 → ∃ t, exec .encodeBytes s = .next t ∧ Raised s t 2) ∧
    (s.inLen ≠ 0 → ∃ t, exec .encodeBytes s = .next t ∧
      Completed s t (encodeSeq (inputBytes s)) ∧
      (s.cfg.wellFormed → s.inLen.toNat = s.cfg.maxLen → t.outLen.toNat = s.cfg.maxOut))

/-- R55 (its encode part): input bytes `3k`, `3k+1`, `3k+2` are the high, middle and low byte of group
`k`, and its symbols stand at `OUT_MEM[4k .. 4k+3]`, bits 23:18 first. -/
def Obligations.EncodeBytesStreamOrder : Prop :=
  ∀ (s : State) (k : Nat), 3 * k + 2 < s.inLen.toNat →
    ∃ t, exec .encodeBytes s = .next t ∧
      (let g : BitVec 24 :=
        memRead s (3 * k) ++ memRead s (3 * k + 1) ++ memRead s (3 * k + 2)
       t.outMem.read? (4 * k) = some (alpha (g.extractLsb' 18 6)) ∧
       t.outMem.read? (4 * k + 1) = some (alpha (g.extractLsb' 12 6)) ∧
       t.outMem.read? (4 * k + 2) = some (alpha (g.extractLsb' 6 6)) ∧
       t.outMem.read? (4 * k + 3) = some (alpha (g.extractLsb' 0 6)))

-- ## The decoder (42_decoder.md)

/-- R144: a pad in position 0 or 1 of any Quartet is rejected in both modes. -/
def Obligations.LeadingPadIsRejectedInBothModes : Prop :=
  ∀ (mode : PadCheck) (pre post : List MappedValue) (v0 v1 v2 v3 : MappedValue),
    pre.length % 4 = 0 → v0 = .pad ∨ v1 = .pad →
    decodeSeq mode (pre ++ [v0, v1, v2, v3] ++ post) = .error .invalidPadPlacement

/-- R145, R149: under `STRICT` the accepted mapped sequences are exactly symbols followed by at most two
pads. -/
def Obligations.StrictAcceptsOnlyTrailingPads : Prop :=
  ∀ m : List MappedValue, m.length % 4 = 0 → m ≠ [] →
    ((∃ out, decodeSeq .strict m = .ok out) ↔
      ∃ (syms : List Idx) (p : Nat), p ≤ 2 ∧ m = syms.map .sym ++ List.replicate p .pad)

/-- R147: under `LENIENT` every Quartet is decoded independently and the results are concatenated; only
a leading pad is rejected. -/
def Obligations.LenientDecodesQuartetsIndependently : Prop :=
  ∀ m₁ m₂ : List MappedValue, m₁.length % 4 = 0 →
    (∀ o₁ o₂, decodeSeq .lenient m₁ = .ok o₁ → decodeSeq .lenient m₂ = .ok o₂ →
      decodeSeq .lenient (m₁ ++ m₂) = .ok (o₁ ++ o₂)) ∧
    (∀ v0 v1 v2 v3, m₁ = [v0, v1, v2, v3] → v0 ≠ .pad → v1 ≠ .pad →
      decodeSeq .lenient m₁ = .ok (decodeGroup ⟨v0, v1, v2, v3⟩))

/-- R146: a Quartet of symbols rebuilds the bytes of the 24-bit value of its indices; a pad in position
3 stops after two bytes and a pad in position 2 after one, whatever position 3 is. -/
def Obligations.DecodeGroupRebuildsTheBytes : Prop :=
  ∀ (i0 i1 i2 i3 : Idx) (v3 : MappedValue),
    (let g : BitVec 24 := i0 ++ i1 ++ i2 ++ i3
     decodeGroup ⟨.sym i0, .sym i1, .sym i2, .sym i3⟩ =
       [g.extractLsb' 16 8, g.extractLsb' 8 8, g.extractLsb' 0 8]) ∧
    (let g : BitVec 24 := i0 ++ i1 ++ i2 ++ (0 : Idx)
     decodeGroup ⟨.sym i0, .sym i1, .sym i2, .pad⟩ = [g.extractLsb' 16 8, g.extractLsb' 8 8]) ∧
    (let g : BitVec 24 := i0 ++ i1 ++ (0 : Idx) ++ (0 : Idx)
     decodeGroup ⟨.sym i0, .sym i1, .pad, v3⟩ = [g.extractLsb' 16 8])

/-- R148: in either mode a padded final Quartet is accepted whatever its unused low bits are, and they
do not show in the output. -/
def Obligations.UnusedLowBitsAreIgnored : Prop :=
  ∀ (mode : PadCheck) (syms : List Idx) (i0 i1 j1 i2 j2 : Idx), syms.length % 4 = 0 →
    (i1.extractLsb' 4 2 = j1.extractLsb' 4 2 →
      ∃ out, decodeSeq mode (syms.map .sym ++ [.sym i0, .sym i1, .pad, .pad]) = .ok out ∧
        decodeSeq mode (syms.map .sym ++ [.sym i0, .sym j1, .pad, .pad]) = .ok out) ∧
    (i2.extractLsb' 2 4 = j2.extractLsb' 2 4 →
      ∃ out, decodeSeq mode (syms.map .sym ++ [.sym i0, .sym i1, .sym i2, .pad]) = .ok out ∧
        decodeSeq mode (syms.map .sym ++ [.sym i0, .sym i1, .sym j2, .pad]) = .ok out)

/-- R151: the output length of a successful decode. -/
def Obligations.DecodeOutputLength : Prop :=
  ∀ (c : Config) (inp out : List Byte), base64Decoder c inp = .ok out →
    (inp.length / 4 ≤ out.length ∧ out.length ≤ 3 * (inp.length / 4) ∧
      3 * (inp.length / 4) ≤ inp.length ∧
      (inp.length ≤ c.maxLen → out.length ≤ c.maxLen ∧ out.length ≤ c.maxOut)) ∧
    (c.padCheck = .strict → inp.count 0x3D ≤ 2 ∧
      inp.drop (inp.length - inp.count 0x3D) = List.replicate (inp.count 0x3D) 0x3D ∧
      out.length = 3 * (inp.length / 4) - inp.count 0x3D)

/-- R150, with R140 to R145 and R149: which code `DECODE_BYTES` reports on which input, under every value
of the parameters, and the Triplets it writes, Quartet by Quartet, on success. The five clauses exclude
one another and leave no input out. -/
def Obligations.DecodeBytesResult : Prop :=
  ∀ s : State,
    (s.inLen = 0 → ∃ t, exec .decodeBytes s = .next t ∧ Raised s t 2) ∧
    (s.inLen ≠ 0 → SymBad s → (s.cfg.errOrder = .symbolFirst ∨ ¬ LenBad s) →
      ∃ t, exec .decodeBytes s = .next t ∧ Raised s t 4) ∧
    (s.inLen ≠ 0 → LenBad s → (s.cfg.errOrder = .lengthFirst ∨ ¬ SymBad s) →
      ∃ t, exec .decodeBytes s = .next t ∧ Raised s t 3) ∧
    (s.inLen ≠ 0 → ¬ SymBad s → ¬ LenBad s → PadBad s →
      ∃ t, exec .decodeBytes s = .next t ∧ Raised s t 5) ∧
    (s.inLen ≠ 0 → ¬ SymBad s → ¬ LenBad s → ¬ PadBad s →
      ∃ t, exec .decodeBytes s = .next t ∧
        Completed s t
          ((List.range (s.inLen.toNat / 4)).flatMap fun k => decodeGroup (quartetAt s k)))

/-- R152: the round trip. `s₂` is any state, with any parameters, whose input is the output of
`ENCODE_BYTES` at `s₁`. (Legal parameters include `P_MAX_OUT < 2^32`, assumption 2, without which `OUT_LEN`
could not hold the length.) -/
def Obligations.DecodeBytesInvertsEncodeBytes : Prop :=
  ∀ s₁ t₁ s₂ : State, s₁.cfg.wellFormed → s₁.inLen ≠ 0 → s₁.inLen.toNat ≤ s₁.cfg.maxLen →
    exec .encodeBytes s₁ = .next t₁ → s₂.inLen = t₁.outLen →
    (∀ j < t₁.outLen.toNat, t₁.outMem.read? j = some (memRead s₂ j)) →
    ∃ t₂, exec .decodeBytes s₂ = .next t₂ ∧ t₂.code = 1 ∧ t₂.outLen = s₁.inLen ∧
      ∀ j < s₁.inLen.toNat, t₂.outMem.read? j = some (memRead s₁ j)

-- ## The text commands (43_text_commands.md)

/-- R171: `ENCODE_TEXT` passes a blank input through and encodes any other in full; it raises nothing. -/
def Obligations.EncodeTextResult : Prop :=
  ∀ s : State,
    (BlankInput s → ∃ t, exec .encodeText s = .next t ∧ Completed s t (inputBytes s)) ∧
    (¬ BlankInput s → ∃ t, exec .encodeText s = .next t ∧
      Completed s t (encodeSeq (inputBytes s)))

/-- R172: `DECODE_TEXT` passes a blank input through, and on any other is `DECODE_BYTES`, which then does
not raise `NoInput`. -/
def Obligations.DecodeTextResult : Prop :=
  ∀ s : State,
    (BlankInput s → ∃ t, exec .decodeText s = .next t ∧ Completed s t (inputBytes s)) ∧
    (¬ BlankInput s → ∃ t, exec .decodeText s = .next t ∧ exec .decodeBytes s = .next t ∧
      t.code ≠ 2)

/-- The round trip of the text commands, for one legal whitespace set: `DECODE_TEXT` of what
`ENCODE_TEXT` gave is the first input, blank or not. -/
def Obligations.DecodeTextInvertsEncodeText : Prop :=
  ∀ s₁ t₁ s₂ : State, s₁.cfg.wellFormed → s₁.inLen.toNat ≤ s₁.cfg.maxLen →
    exec .encodeText s₁ = .next t₁ → s₂.cfg.wsSet = s₁.cfg.wsSet → s₂.inLen = t₁.outLen →
    (∀ j < t₁.outLen.toNat, t₁.outMem.read? j = some (memRead s₂ j)) →
    ∃ t₂, exec .decodeText s₂ = .next t₂ ∧ t₂.code = 1 ∧ t₂.outLen = s₁.inLen ∧
      ∀ j < s₁.inLen.toNat, t₂.outMem.read? j = some (memRead s₁ j)

-- ## Errors and completion (60_exceptions.md)

/-- R180: which codes each command can report. Every command completes in every state. -/
def Obligations.EveryCommandCompletesWithItsOwnCodes : Prop :=
  ∀ s : State,
    (∃ t, exec .encodeBytes s = .next t ∧ (t.code = 1 ∨ t.code = 2)) ∧
    (∃ t, exec .decodeBytes s = .next t ∧
      (t.code = 1 ∨ t.code = 2 ∨ t.code = 3 ∨ t.code = 4 ∨ t.code = 5)) ∧
    (∃ t, exec .encodeText s = .next t ∧ t.code = 1) ∧
    (∃ t, exec .decodeText s = .next t ∧ (t.code = 1 ∨ t.code = 3 ∨ t.code = 4 ∨ t.code = 5))

/-- R27, R181, R182: every command leaves `CommandFrame`, and unless its code is `OK` it leaves no
output. -/
def Obligations.CommandFrameAndNoPartialOutput : Prop :=
  ∀ (i : Instr) (s : State), ∃ t, exec i s = .next t ∧ CommandFrame s t ∧
    (t.code ≠ 1 → t.outLen = 0 ∧ ∀ j, t.outMem.read? j = none)

/-- R59, R184: the same command again, on the unchanged input, leaves everything as the first run left
it. -/
def Obligations.RepeatingACommandChangesNothing : Prop :=
  ∀ (i : Instr) (s : State), ∃ t, exec i s = .next t ∧ exec i t = .next t

/-- R32, R66: a command's outcome depends on `IN_LEN`, the bytes below it and the parameters, and on
nothing else: no earlier status or output, and no byte at `IN_LEN` or above. -/
def Obligations.OutcomeDependsOnlyOnTheInput : Prop :=
  ∀ (i : Instr) (s s' : State), s'.cfg = s.cfg → s'.inLen = s.inLen →
    (∀ j < s.inLen.toNat, memRead s' j = memRead s j) →
    ∃ t t', exec i s = .next t ∧ exec i s' = .next t' ∧ t'.code = t.code ∧
      t'.outLen = t.outLen ∧ ∀ j, t'.outMem.read? j = t.outMem.read? j

-- ## The host's accesses (20_memory.md)
-- What is said of `pending` and `replies` is the model's form of the bus (assumption 5): a step serves the
-- first pending access, and what a read returns is appended to `replies`.

/-- R51, R52, R26: every access to the CSR space but a write to `CMD`. -/
def Obligations.CsrSpaceAccesses : Prop :=
  ∀ (s : State) (width : Width) (off : Nat) (v : Word) (rest : List HostAccess),
    (s.pending = .csrRead width off :: rest →
      (¬ (width = .word ∧ off % 4 = 0) → step s = .refused .csrAccessShape) ∧
      (width = .word → off % 4 = 0 →
        ∃ x, step s = .next { s with pending := rest, replies := s.replies ++ [.word x] } ∧
          (off = 0x00 → x = 0) ∧
          (off = 0x04 → x.extractLsb' 3 29 = 0 ∧ x.extractLsb' 0 3 = s.code) ∧
          (off = 0x08 → x = s.inLen) ∧ (off = 0x0C → x = s.outLen) ∧
          (off ≠ 0x00 → off ≠ 0x04 → off ≠ 0x08 → off ≠ 0x0C → x = 0))) ∧
    (s.pending = .csrWrite width off v :: rest →
      (¬ (width = .word ∧ off % 4 = 0) → step s = .refused .csrAccessShape) ∧
      (width = .word → off % 4 = 0 → off ≠ 0x00 → off ≠ 0x08 →
        step s = .next { s with pending := rest }) ∧
      (width = .word → off = 0x08 → v.toNat ≤ s.cfg.maxLen →
        step s = .next { s with pending := rest, inLen := v }) ∧
      (width = .word → off = 0x08 → s.cfg.maxLen < v.toNat →
        step s = .refused .inLenOverRange))

/-- R53: the IN space. -/
def Obligations.InSpaceAccesses : Prop :=
  ∀ (s : State) (i : Nat) (v : Byte) (rest : List HostAccess),
    (s.pending = .inRead i :: rest →
      (i < s.cfg.maxLen → step s =
        .next { s with pending := rest, replies := s.replies ++ [.byte (memRead s i)] }) ∧
      (s.cfg.maxLen ≤ i → step s = .refused .inIndexOutOfRange)) ∧
    (s.pending = .inWrite i v :: rest →
      (i < s.cfg.maxLen → ∃ m t, t = { s with pending := rest, inMem := m } ∧ step s = .next t ∧
        memRead t i = v ∧ (∀ k, k ≠ i → memRead t k = memRead s k) ∧ t.inLen = s.inLen) ∧
      (s.cfg.maxLen ≤ i → step s = .refused .inIndexOutOfRange))

/-- R54: the OUT space. Which byte an unspecified cell returns is not said. -/
def Obligations.OutSpaceAccesses : Prop :=
  ∀ (s : State) (j : Nat) (v : Byte) (rest : List HostAccess),
    (s.pending = .outRead j :: rest →
      (j < s.cfg.maxOut → ∃ t b, step s = .next t ∧ SameBlock s t ∧ t.pending = rest ∧
        t.replies = s.replies ++ [.byte b] ∧ (∀ x, s.outMem.read? j = some x → b = x)) ∧
      (s.cfg.maxOut ≤ j → step s = .refused .outIndexOutOfRange)) ∧
    (s.pending = .outWrite j v :: rest →
      (j < s.cfg.maxOut → step s = .next { s with pending := rest }) ∧
      (s.cfg.maxOut ≤ j → step s = .refused .outIndexOutOfRange))

/-- R205 duties 1 to 3: a step is refused exactly when the host's next access breaks one of them, and
runs otherwise. -/
def Obligations.RefusedExactlyOutsideTheInterface : Prop :=
  ∀ (s : State) (a : HostAccess) (rest : List HostAccess), s.pending = a :: rest →
    ((∃ r, step s = .refused r) ↔ a.wellFormed s.cfg = false) ∧
    ((∃ t, step s = .next t) ↔ a.wellFormed s.cfg = true)

/-- R59: no read has a side effect on the block. -/
def Obligations.ReadsLeaveTheBlockUnchanged : Prop :=
  ∀ (s t : State) (a : HostAccess) (rest : List HostAccess), s.pending = a :: rest →
    (∃ w off, a = .csrRead w off) ∨ (∃ i, a = .inRead i) ∨ (∃ j, a = .outRead j) →
    step s = .next t →
    SameBlock s t ∧ t.pending = rest ∧ ∃ r, t.replies = s.replies ++ [r]

/-- R25, R27, R29: `STATUS`, `OUT_LEN` and `OUT_MEM` are written by a command's completion and by reset,
and by nothing else. -/
def Obligations.OnlyCommandsAndResetWriteTheOutcome : Prop :=
  ∀ s t : State, step s = .next t →
    t.status ≠ s.status ∨ t.outLen ≠ s.outLen ∨ t.outMem ≠ s.outMem →
    ∃ rest, (∃ w, s.pending = .csrWrite .word 0x00 w :: rest) ∨ s.pending = .reset :: rest

/-- R26, R28, D25: `IN_LEN` is changed by the host's write to it and by reset only, and a byte of
`IN_MEM` by the host's write to that byte and by reset only. -/
def Obligations.OnlyTheHostWritesTheInput : Prop :=
  ∀ s t : State, step s = .next t → (∀ rest, s.pending ≠ .reset :: rest) →
    (t.inLen ≠ s.inLen → ∃ rest, s.pending = .csrWrite .word 0x08 t.inLen :: rest) ∧
    (∀ i, memRead t i ≠ memRead s i → ∃ rest, s.pending = .inWrite i (memRead t i) :: rest)

/-- R60: the accesses are served one at a time, in the order the host issues them, and each gives at most
one reply, after all earlier ones. The queue and the replies are the model's form of the bus (assumption 5).
For the reset access the statement is the model's own choice and not in R60: that the accesses issued before
it are still served after it, and that the earlier replies survive it, is assumption 9 (DESIGN CHOICE). -/
def Obligations.AccessesAreServedInOrder : Prop :=
  ∀ (s t : State) (a : HostAccess) (rest : List HostAccess), s.pending = a :: rest →
    step s = .next t →
    t.pending = rest ∧ (t.replies = s.replies ∨ ∃ r, t.replies = s.replies ++ [r])

/-- R192: with no access of the host the block holds its state. -/
def Obligations.IdleBlockHoldsItsState : Prop :=
  ∀ s : State, s.pending = [] → step s = .next s

/-- R77: `load` puts its bytes in front of the input buffer and their number in `IN_LEN`, whatever
they are, and touches nothing else. -/
def Obligations.LoadMakesItsBytesTheInput : Prop :=
  ∀ (s : State) (bs : List Byte) (rest : List HostAccess),
    s.cfg.wellFormed → bs.length ≤ s.cfg.maxLen → s.pending = load bs ++ rest →
    ∃ t : State, Sys2Proof.core.run (bs.length + 1) s = .next t ∧ inputBytes t = bs ∧
      (∀ i, bs.length ≤ i → memRead t i = memRead s i) ∧ t.pending = rest ∧
      t.status = s.status ∧ t.outLen = s.outLen ∧ t.outMem = s.outMem ∧ t.cfg = s.cfg ∧
      t.replies = s.replies

/-- R77, G1: `load "<chars>"` puts the ASCII codes of the characters in front of the input buffer and their
number in `IN_LEN`, and touches nothing else. The codes of characters that G1 does not name are the model's
(assumption 16), and so is the rule which text has an expansion (assumption 17). -/
def Obligations.LoadCharsMakesTheirCodesTheInput : Prop :=
  ∀ (s : State) (chars : String) (rest : List HostAccess),
    ((∃ l, loadChars chars = some l) ↔ ∀ c ∈ chars.toList, c.toNat < 0x80) ∧
    ∀ l, loadChars chars = some l → s.cfg.wellFormed → chars.toList.length ≤ s.cfg.maxLen →
      s.pending = l ++ rest →
      ∃ t : State, Sys2Proof.core.run (chars.toList.length + 1) s = .next t ∧
        (inputBytes t).map BitVec.toNat = chars.toList.map Char.toNat ∧
        (∀ i, chars.toList.length ≤ i → memRead t i = memRead s i) ∧ t.pending = rest ∧
        t.status = s.status ∧ t.outLen = s.outLen ∧ t.outMem = s.outMem ∧ t.cfg = s.cfg ∧
        t.replies = s.replies

/-- G1: the ASCII codes of the characters it names, and R100, R102: the symbols' characters have the table's
byte codes. -/
def Obligations.AsciiCodesOfTheNamedCharacters : Prop :=
  asciiCodes "ABCDEFGHIJKLMNOPQRSTUVWXYZ" = some ((List.range 26).map fun i => BitVec.ofNat 8 (0x41 + i)) ∧
  asciiCodes "abcdefghijklmnopqrstuvwxyz" = some ((List.range 26).map fun i => BitVec.ofNat 8 (0x61 + i)) ∧
  asciiCodes "0123456789" = some ((List.range 10).map fun i => BitVec.ofNat 8 (0x30 + i)) ∧
  asciiCodes "+/= \r\n!-_" = some [0x2B, 0x2F, 0x3D, 0x20, 0x0D, 0x0A, 0x21, 0x2D, 0x5F] ∧
  asciiCodes "ABCDEFGHIJKLMNOPQRSTUVWXYZabcdefghijklmnopqrstuvwxyz0123456789+/" =
    some ((List.range 64).map fun i => alpha (BitVec.ofNat 6 i))

/-- R77: `copyback` after a command that left the output `vs` makes `vs` the input, and the host reads
`OUT_LEN` and then the bytes of `vs` in order; the bytes of `IN_MEM` past `vs` stay. -/
def Obligations.CopybackFeedsTheOutputBack : Prop :=
  ∀ (s : State) (vs : List Byte) (rest : List HostAccess),
    Inv s → s.outLen = BitVec.ofNat 32 vs.length → (∀ j, s.outMem.read? j = vs[j]?) →
    vs.length ≤ s.cfg.maxLen → s.pending = copyback vs ++ rest →
    ∃ t : State, Sys2Proof.core.run (2 * vs.length + 2) s = .next t ∧ inputBytes t = vs ∧
      (∀ i, vs.length ≤ i → memRead t i = memRead s i) ∧ t.pending = rest ∧ t.status = s.status ∧ t.outLen = s.outLen ∧ t.outMem = s.outMem ∧
      t.replies = s.replies ++ .word s.outLen :: vs.map .byte

/-- R77: `result` reads `STATUS`, `OUT_LEN` and the output bytes in order, and leaves the block as it is. -/
def Obligations.ResultReadsTheOutput : Prop :=
  ∀ (s : State) (vs : List Byte) (rest : List HostAccess),
    (∀ j, s.outMem.read? j = vs[j]?) → vs.length ≤ s.cfg.maxOut →
    s.pending = result vs.length ++ rest →
    ∃ t : State, Sys2Proof.core.run (vs.length + 2) s = .next t ∧ SameBlock s t ∧
      t.pending = rest ∧
      t.replies = s.replies ++ .word (s.code.setWidth 32) :: .word s.outLen :: vs.map .byte

-- ## Reset and whole-machine rules (70_reset_and_hazards.md)

/-- R200: the reset event, from any state, and the state the machine starts in. (The tables are
constants, which nothing changes, assumption 7.) -/
def Obligations.ResetGivesTheResetValues : Prop :=
  (∀ (s : State) (rest : List HostAccess), s.pending = .reset :: rest →
    ∃ t, step s = .next t ∧ t.code = 0 ∧ t.status.extractLsb' 3 29 = 0 ∧ t.inLen = 0 ∧
      t.outLen = 0 ∧ csrValue t 0x00 = 0 ∧ (∀ i, t.inMem.read? i = none) ∧
      (∀ j, t.outMem.read? j = none) ∧ t.cfg = s.cfg) ∧
  (State.reset.code = 0 ∧ State.reset.status.extractLsb' 3 29 = 0 ∧ State.reset.inLen = 0 ∧
    State.reset.outLen = 0 ∧ (∀ i, State.reset.inMem.read? i = none) ∧
    ∀ j, State.reset.outMem.read? j = none)

/-- The machine starts in the invariant. (The parameters of `State.reset` are the model's choice,
assumption 1.) -/
def Obligations.ResetMeetsTheInvariant : Prop := Inv State.reset

/-- Every step from a state of the invariant answers a state of the invariant. -/
def Obligations.EveryStepKeepsTheInvariant : Prop :=
  ∀ s t : State, Inv s → step s = .next t → Inv t

/-- R34, R200: no step changes a parameter, not even the reset event. -/
def Obligations.NoStepChangesTheParameters : Prop :=
  ∀ s t : State, step s = .next t → t.cfg = s.cfg
end

