-- ==== Sys2Proof/Laws/Memory.lean ====
section
/-! SUPPORT. The laws of a byte buffer: reading after a write, and the canonical form kept by every
operation. -/

namespace Sys2Proof.Machine

@[simp] theorem Memory.read?_nil (a : Nat) : Memory.read? [] a = none := rfl

/-- A read after a write: the byte written at its own index, the earlier one everywhere else. -/
theorem Memory.read?_write (m : Memory) (a b : Nat) (v : Byte) :
    (m.write a v).read? b = if b = a then some v else m.read? b := by
  induction m with
  | nil => simp [Memory.write, Memory.read?, Memory.unlisted]
  | cons c m ih =>
    obtain ⟨d, u⟩ := c
    simp only [Memory.write]
    split
    · simp [Memory.read?]
    · split
      · subst d; simp only [Memory.read?]; split <;> rfl
      · simp only [Memory.read?, ih]
        split
        · rw [if_neg (by omega)]
        · rfl

/-- A write adds its own index and no other. -/
theorem Memory.mem_keys_write (m : Memory) (a : Nat) (v : Byte) (k : Nat) :
    k ∈ (m.write a v).map Prod.fst ↔ k = a ∨ k ∈ m.map Prod.fst := by
  induction m with
  | nil => simp [Memory.write]
  | cons c m ih =>
    obtain ⟨d, u⟩ := c
    simp only [Memory.write]
    split
    · simp
    · split
      · subst d; simp
      · simp only [List.map_cons, List.mem_cons, ih]; tauto

/-- A write keeps the canonical form. -/
theorem Memory.wf_write {m : Memory} (h : m.wf) (a : Nat) (v : Byte) : (m.write a v).wf := by
  induction m with
  | nil => simp [Memory.write, Memory.wf]
  | cons c m ih =>
    obtain ⟨d, u⟩ := c
    simp only [Memory.wf, List.map_cons, List.pairwise_cons] at h
    simp only [Memory.write]
    split
    · rename_i hlt
      simp only [Memory.wf, List.map_cons, List.pairwise_cons, List.mem_cons]
      exact ⟨by rintro k (rfl | hk); exacts [hlt, hlt.trans (h.1 k hk)], h⟩
    · split
      · subst d; simpa only [Memory.wf, List.map_cons, List.pairwise_cons] using h
      · simp only [Memory.wf, List.map_cons, List.pairwise_cons, Memory.mem_keys_write]
        exact ⟨by rintro k (rfl | hk); exacts [by omega, h.1 k hk], ih h.2⟩

/-- A write past every listed index appends its cell. -/
theorem Memory.write_append {m : Memory} {a : Nat} (h : ∀ c ∈ m, c.1 < a) (v : Byte) :
    m.write a v = m ++ [(a, v)] := by
  induction m with
  | nil => rfl
  | cons c m ih =>
    obtain ⟨d, u⟩ := c
    have hd : d < a := h (d, u) (by simp)
    simp only [Memory.write, if_neg (Nat.not_lt.mpr hd.le), if_neg (Nat.ne_of_gt hd),
      ih fun c hc => h c (List.mem_cons_of_mem _ hc), List.cons_append]

/-- The loop of `complete`, from index `j`: cell `j + i` holds byte `i`, other cells are as before. -/
theorem Memory.read?_writeFrom (out : List Byte) (m : Memory) (j a : Nat) :
    (Memory.writeFrom m j out).read? a =
      if j ≤ a ∧ a < j + out.length then out[a - j]? else m.read? a := by
  induction out generalizing m j with
  | nil => rw [if_neg (by simp)]; rfl
  | cons b out ih =>
    simp only [Memory.writeFrom, ih, Memory.read?_write, List.length_cons]
    by_cases ha : a = j
    · subst ha; simp
    · by_cases h : j ≤ a ∧ a < j + (out.length + 1)
      · rw [if_pos (by omega), if_pos h, show a - j = (a - (j + 1)) + 1 by omega,
          List.getElem?_cons_succ]
      · rw [if_neg (by omega), if_neg ha, if_neg h]

/-- What `complete` leaves in `OUT_MEM`: the output, and nothing past it. -/
theorem Memory.read?_writeFrom_nil (out : List Byte) (a : Nat) :
    (Memory.writeFrom [] 0 out).read? a = out[a]? := by
  rw [Memory.read?_writeFrom]
  split
  · rfl
  · rename_i h
    rw [Memory.read?_nil, List.getElem?_eq_none (by omega)]

/-- The loop of `complete` keeps the canonical form. -/
theorem Memory.wf_writeFrom {m : Memory} (h : m.wf) (j : Nat) (out : List Byte) :
    (Memory.writeFrom m j out).wf := by
  induction out generalizing m j with
  | nil => exact h
  | cons b out ih => exact ih (Memory.wf_write h j b) (j + 1)

/-- The indices the loop of `complete` lists, when all earlier ones lie below `j`. -/
theorem Memory.keys_writeFrom (out : List Byte) {m : Memory} {j : Nat} (h : ∀ c ∈ m, c.1 < j) :
    (Memory.writeFrom m j out).map Prod.fst = m.map Prod.fst ++ List.range' j out.length := by
  induction out generalizing m j with
  | nil => simp [Memory.writeFrom]
  | cons b out ih =>
    rw [Memory.writeFrom, Memory.write_append h, ih]
    · simp [List.range'_succ]
    · intro c hc
      rcases List.mem_append.mp hc with hc | hc
      · exact (h c hc).trans (Nat.lt_succ_self j)
      · simp_all

/-- A listed cell reads as a byte. -/
theorem Memory.read?_isSome_iff (m : Memory) (a : Nat) :
    (m.read? a).isSome ↔ a ∈ m.map Prod.fst := by
  induction m with
  | nil => simp
  | cons c m ih =>
    obtain ⟨d, u⟩ := c
    simp only [Memory.read?, List.map_cons, List.mem_cons]
    split
    · simp [*]
    · simp [*]

end Sys2Proof.Machine
end

