-- ==== Sys2Proof/Laws/State.lean ====
section
/-! SUPPORT. One lemma per field per update of `State`, so that no proof unfolds a record update. -/

namespace Sys2Proof.Machine

variable (s : State) (k : ErrKind) (out : List Byte) (r : Reply)

@[simp] theorem raise_cfg : (raise k s).cfg = s.cfg := rfl
@[simp] theorem raise_status : (raise k s).status = setCode s.status k.code := rfl
@[simp] theorem raise_inLen : (raise k s).inLen = s.inLen := rfl
@[simp] theorem raise_outLen : (raise k s).outLen = 0 := rfl
@[simp] theorem raise_inMem : (raise k s).inMem = s.inMem := rfl
@[simp] theorem raise_outMem : (raise k s).outMem = [] := rfl
@[simp] theorem raise_epoch : (raise k s).epoch = s.epoch := rfl
@[simp] theorem raise_draws : (raise k s).draws = s.draws := rfl
@[simp] theorem raise_pending : (raise k s).pending = s.pending := rfl
@[simp] theorem raise_replies : (raise k s).replies = s.replies := rfl

@[simp] theorem complete_cfg : (complete out s).cfg = s.cfg := rfl
@[simp] theorem complete_status : (complete out s).status = setCode s.status okCode := rfl
@[simp] theorem complete_inLen : (complete out s).inLen = s.inLen := rfl
@[simp] theorem complete_outLen : (complete out s).outLen = BitVec.ofNat 32 out.length := rfl
@[simp] theorem complete_inMem : (complete out s).inMem = s.inMem := rfl
@[simp] theorem complete_outMem : (complete out s).outMem = Memory.writeFrom [] 0 out := rfl
@[simp] theorem complete_epoch : (complete out s).epoch = s.epoch := rfl
@[simp] theorem complete_draws : (complete out s).draws = s.draws := rfl
@[simp] theorem complete_pending : (complete out s).pending = s.pending := rfl
@[simp] theorem complete_replies : (complete out s).replies = s.replies := rfl

@[simp] theorem reply_cfg : (s.reply r).cfg = s.cfg := rfl
@[simp] theorem reply_status : (s.reply r).status = s.status := rfl
@[simp] theorem reply_inLen : (s.reply r).inLen = s.inLen := rfl
@[simp] theorem reply_outLen : (s.reply r).outLen = s.outLen := rfl
@[simp] theorem reply_inMem : (s.reply r).inMem = s.inMem := rfl
@[simp] theorem reply_outMem : (s.reply r).outMem = s.outMem := rfl
@[simp] theorem reply_epoch : (s.reply r).epoch = s.epoch := rfl
@[simp] theorem reply_draws : (s.reply r).draws = s.draws := rfl
@[simp] theorem reply_pending : (s.reply r).pending = s.pending := rfl
@[simp] theorem reply_replies : (s.reply r).replies = s.replies ++ [r] := rfl

@[simp] theorem applyReset_cfg : (applyReset s).cfg = s.cfg := rfl
@[simp] theorem applyReset_status : (applyReset s).status = 0 := rfl
@[simp] theorem applyReset_inLen : (applyReset s).inLen = 0 := rfl
@[simp] theorem applyReset_outLen : (applyReset s).outLen = 0 := rfl
@[simp] theorem applyReset_inMem : (applyReset s).inMem = [] := rfl
@[simp] theorem applyReset_outMem : (applyReset s).outMem = [] := rfl
@[simp] theorem applyReset_epoch : (applyReset s).epoch = s.epoch + 1 := rfl
@[simp] theorem applyReset_draws : (applyReset s).draws = s.draws := rfl
@[simp] theorem applyReset_pending : (applyReset s).pending = s.pending := rfl
@[simp] theorem applyReset_replies : (applyReset s).replies = s.replies := rfl

/-- Bit `i` of a word whose `CODE` was written: from the code below bit 3, from the old word above. -/
theorem setCode_bit (w : Word) (c : BitVec 3) (i : Nat) :
    (setCode w c).getLsbD i = if i < 3 then c.getLsbD i else (i < 32 && w.getLsbD i) := by
  have h := BitVec.getLsbD_append (x := w.extractLsb' 3 29) (y := c) (i := i)
  simp only [setCode]
  refine h.trans ?_
  split
  · simp [*]
  · simp only [BitVec.getLsbD_extractLsb', show 3 + (i - 3) = i by omega, *]
    by_cases hi : i < 32
    · simp [show i - 3 < 29 by omega, hi]
    · simp [show ¬ i - 3 < 29 by omega, hi]

/-- A write of `STATUS.CODE` is read back. -/
@[simp] theorem setCode_code (w : Word) (c : BitVec 3) : (setCode w c).extractLsb' 0 3 = c := by
  ext i hi
  simp [setCode_bit, hi, BitVec.getLsbD_eq_getElem]

/-- A write of `STATUS.CODE` leaves the reserved bits 31:3. -/
@[simp] theorem setCode_rsvd (w : Word) (c : BitVec 3) :
    (setCode w c).extractLsb' 3 29 = w.extractLsb' 3 29 := by
  ext i hi
  rw [BitVec.getElem_extractLsb', BitVec.getElem_extractLsb', setCode_bit, if_neg (by omega),
    decide_eq_true (show 3 + i < 32 by omega), Bool.true_and]

/-- A second write of a code overwrites the first. -/
@[simp] theorem setCode_setCode (w : Word) (c d : BitVec 3) :
    setCode (setCode w c) d = setCode w d :=
  congrArg (· ++ d) (setCode_rsvd w c)

@[simp] theorem raise_code : (raise k s).code = k.code := setCode_code _ _
@[simp] theorem complete_code : (complete out s).code = okCode := setCode_code _ _

/-- Reading `IN_MEM` looks only at the buffer and the stamp of its unknown cells. -/
theorem memRead_congr {s t : State} (hm : t.inMem = s.inMem) (he : t.epoch = s.epoch) (i : Nat) :
    memRead t i = memRead s i := by
  simp only [memRead, hm, he]

end Sys2Proof.Machine
end

