-- ==== Sys2Proof/Laws/Commands.lean ====
section
/-! SUPPORT. What the shared operations `raise`, `complete` and `inputBytes` do, said once. -/

namespace Sys2Proof.Machine

/-- `raise` leaves what a command leaves. -/
theorem raise_frame (k : ErrKind) (s : State) : CommandFrame s (raise k s) :=
  ⟨rfl, rfl, rfl, fun _ => rfl, setCode_rsvd _ _, rfl, rfl, rfl, rfl⟩

/-- `complete` leaves what a command leaves. -/
theorem complete_frame (out : List Byte) (s : State) : CommandFrame s (complete out s) :=
  ⟨rfl, rfl, rfl, fun _ => rfl, setCode_rsvd _ _, rfl, rfl, rfl, rfl⟩

/-- Everything `raise` does. -/
theorem raise_raised (k : ErrKind) (s : State) : Raised s (raise k s) k.code :=
  ⟨raise_code s k, rfl, fun _ => rfl, raise_frame k s⟩

/-- Everything `complete` does. -/
theorem complete_completed (out : List Byte) (s : State) : Completed s (complete out s) out :=
  ⟨complete_code s out, rfl, Memory.read?_writeFrom_nil out, complete_frame out s⟩

/-- A command ends in one of two ways. -/
theorem finish_cases (r : Except ErrKind (List Byte)) (s : State) :
    (∃ out, r = .ok out ∧ finish r s = complete out s) ∨
    (∃ k, r = .error k ∧ finish r s = raise k s) := by
  cases r with
  | ok out => exact .inl ⟨out, rfl, rfl⟩
  | error k => exact .inr ⟨k, rfl, rfl⟩

/-- The input has as many bytes as `IN_LEN` says. -/
@[simp] theorem inputBytes_length (s : State) : (inputBytes s).length = s.inLen.toNat := by
  simp [inputBytes]

/-- Byte `i` of the input is `IN_MEM[i]`. -/
theorem inputBytes_getElem (s : State) (i : Nat) (h : i < (inputBytes s).length) :
    (inputBytes s)[i] = memRead s i := by
  simp [inputBytes]

/-- The input depends on `IN_LEN` and the bytes below it, and on nothing else (R66). -/
theorem inputBytes_congr {s t : State} (hl : t.inLen = s.inLen)
    (h : ∀ i < s.inLen.toNat, memRead t i = memRead s i) : inputBytes t = inputBytes s := by
  simp only [inputBytes, hl]
  exact List.map_congr_left fun i hi => h i (List.mem_range.mp hi)

end Sys2Proof.Machine
end

