-- ==== Sys2Proof/Laws/Codec.lean ====
section
/-! SUPPORT. The lemmas of the datapath's own functions: the blank test, the first pass on a valid input,
and the windowing of the decoder. -/

namespace Sys2Proof.Machine

/-- The blank test of a state's input, by index (R170). -/
theorem blank_inputBytes_iff (s : State) :
    blank s.cfg.wsSet (inputBytes s) = true ↔ BlankInput s := by
  simp only [blank, Bool.or_eq_true, beq_iff_eq, inputBytes_length, List.all_eq_true,
    List.contains_iff_mem]
  constructor
  · rintro (h | h) i hi
    · omega
    · exact h _ (by rw [inputBytes]; exact List.mem_map_of_mem (List.mem_range.mpr hi))
  · refine fun h => .inr fun b hb => ?_
    rw [inputBytes, List.mem_map] at hb
    obtain ⟨i, hi, rfl⟩ := hb
    exact h i (List.mem_range.mp hi)

/-- `sym_bad` of an input: some byte is `Invalid` (R140). -/
theorem symBad_map_classify (inp : List Byte) :
    symBad (inp.map classify) = true ↔ ∃ b ∈ inp, classify b = none := by
  simp [symBad]

/-- On an input without an invalid byte the second pass sees every mapped value. -/
theorem filterMap_classify (inp : List Byte) (h : ∀ b ∈ inp, classify b ≠ none) :
    (inp.map classify).filterMap id = inp.map fun b => (classify b).getD .pad := by
  induction inp with
  | nil => rfl
  | cons b inp ih =>
    rw [List.map_cons, List.map_cons, ← ih fun x hx => h x (List.mem_cons_of_mem _ hx)]
    cases hc : classify b with
    | none => exact absurd hc (h b List.mem_cons_self)
    | some v => simp

/-- A sequence shorter than a Quartet has none. -/
theorem quartets_of_short {m : List MappedValue} (h : m.length < 4) : quartets m = [] := by
  match m, h with
  | [], _ => rfl
  | [_], _ => simp [quartets]
  | [_, _], _ => simp [quartets]
  | [_, _, _], _ => simp [quartets]

/-- There are `n / 4` Quartets (R143). -/
theorem quartets_length (m : List MappedValue) : (quartets m).length = m.length / 4 := by
  induction m using quartets.induct with
  | case1 v0 v1 v2 v3 rest ih => simp only [quartets, List.length_cons, ih]; omega
  | case2 m h =>
    have hm : m.length < 4 := by
      by_contra hl
      obtain ⟨a, b, c, d, r, rfl⟩ : ∃ a b c d r, m = a :: b :: c :: d :: r := by
        match m, hl with
        | a :: b :: c :: d :: r, _ => exact ⟨a, b, c, d, r, rfl⟩
        | [], hl | [_], hl | [_, _], hl | [_, _, _], hl => simp at hl
      exact h a b c d r rfl
    rw [quartets_of_short hm, List.length_nil]; omega

/-- Windowing splits at a Quartet boundary. -/
theorem quartets_append (m₁ m₂ : List MappedValue) (h : m₁.length % 4 = 0) :
    quartets (m₁ ++ m₂) = quartets m₁ ++ quartets m₂ := by
  match m₁, h with
  | [], _ => rfl
  | v0 :: v1 :: v2 :: v3 :: rest, h =>
    simp only [List.cons_append, quartets]
    rw [quartets_append rest m₂ (by simp only [List.length_cons] at h; omega)]
  | [_], h | [_, _], h | [_, _, _], h => simp at h

end Sys2Proof.Machine
end

