-- ==== Sys2Proof/Laws/HostOps.lean ====
section
/-! SUPPORT. What the expansion of `load "<chars>"` is: it exists exactly for ASCII text, and is `load` of
the characters' numbers. -/

namespace Sys2Proof.Machine

theorem asciiCode_eq_some_iff {c : Char} {b : Byte} :
    asciiCode c = some b ↔ c.toNat < 0x80 ∧ b.toNat = c.toNat := by
  unfold asciiCode
  split
  · simp only [Option.some.injEq, ← BitVec.toNat_inj, BitVec.toNat_ofNat]; omega
  · simp [*]

/-- The codes are the characters' numbers, one for each, all below 128. -/
theorem mapM_asciiCode_eq_some_iff {cs : List Char} {bs : List Byte} :
    cs.mapM asciiCode = some bs ↔
      (∀ c ∈ cs, c.toNat < 0x80) ∧ bs.map BitVec.toNat = cs.map Char.toNat := by
  induction cs generalizing bs with
  | nil => simp
  | cons c cs ih =>
    simp only [List.mapM_cons, Option.bind_eq_bind, Option.pure_def, Option.bind_eq_some_iff,
      asciiCode_eq_some_iff, ih, Option.some.injEq, List.forall_mem_cons]
    constructor
    · rintro ⟨b, ⟨hc, hb⟩, bs, ⟨hcs, hbs⟩, rfl⟩
      exact ⟨⟨hc, hcs⟩, by simp [hb, hbs]⟩
    · rintro ⟨⟨hc, hcs⟩, h⟩
      obtain ⟨b, bs, rfl⟩ : ∃ b bs', bs = b :: bs' := by cases bs <;> simp_all
      simp only [List.map_cons, List.cons.injEq] at h
      exact ⟨b, ⟨hc, h.1⟩, bs, ⟨hcs, h.2⟩, rfl⟩

/-- Everything `load "<chars>"` can be. -/
theorem loadChars_eq_some_iff {chars : String} {l : List HostAccess} :
    loadChars chars = some l ↔
      (∀ c ∈ chars.toList, c.toNat < 0x80) ∧
        ∃ bs : List Byte, bs.map BitVec.toNat = chars.toList.map Char.toNat ∧ l = load bs := by
  simp only [loadChars, asciiCodes, Option.map_eq_some_iff, mapM_asciiCode_eq_some_iff, and_assoc,
    exists_and_left, eq_comm (a := load _)]

end Sys2Proof.Machine
end

