-- ==== Sys2Proof/Laws/PerInstr.lean ====
section
/-! SUPPORT. Statements for all commands, one lemma per constructor. -/

namespace Sys2Proof.Laws.CommandWord

/-- The command word of `i` has `RSVD = 0` in bits 31:3 and its own opcode in bits 2:0 (R70, R71). -/
def Statement (i : Instr) : Prop :=
  (encode i).extractLsb' 3 29 = 0 ∧ (encode i).extractLsb' 0 3 = opcode i

theorem encodeBytes : Statement .encodeBytes := ⟨rfl, rfl⟩
theorem decodeBytes : Statement .decodeBytes := ⟨rfl, rfl⟩
theorem encodeText : Statement .encodeText := ⟨rfl, rfl⟩
theorem decodeText : Statement .decodeText := ⟨rfl, rfl⟩

end Sys2Proof.Laws.CommandWord
end

