-- ==== Sys2Proof/Laws/Step.lean ====
section
/-! SUPPORT. What a step can do, said once: the inversion lemmas of `exec`, `hostAccess` and `step`. -/

namespace Sys2Proof.Machine

/-- Every command ends by `finish` of some result, in every state. -/
theorem exec_finish (i : Instr) (s : State) : ∃ r, exec i s = .next (finish r s) := by
  cases i with
  | encodeBytes => exact ⟨_, rfl⟩
  | decodeBytes => exact ⟨_, rfl⟩
  | encodeText =>
    simp only [exec, execEncodeText]
    split
    · exact ⟨.ok _, rfl⟩
    · exact ⟨.ok _, rfl⟩
  | decodeText =>
    simp only [exec, execDecodeText]
    split
    · exact ⟨.ok _, rfl⟩
    · exact ⟨_, rfl⟩

/-- A write of any word to `CMD` ends by `finish` of some result. -/
theorem writeCmd_finish (w : Word) (s : State) : ∃ r, writeCmd w s = .next (finish r s) := by
  unfold writeCmd
  split
  · exact exec_finish _ s
  · exact ⟨.error .badCommand, rfl⟩

/-- The shape of a CSR access (R51). -/
theorem csrShapeOk_iff (w : Width) (off : Nat) :
    csrShapeOk w off = true ↔ w = .word ∧ off % 4 = 0 := by
  simp [csrShapeOk]

/-- Which register an offset reaches (R51). -/
theorem csrAt_cases (off : Nat) :
    (csrAt off = some .cmd ∧ off = 0x00) ∨ (csrAt off = some .status ∧ off = 0x04) ∨
    (csrAt off = some .inLen ∧ off = 0x08) ∨ (csrAt off = some .outLen ∧ off = 0x0C) ∨
    (csrAt off = none ∧ off ≠ 0x00 ∧ off ≠ 0x04 ∧ off ≠ 0x08 ∧ off ≠ 0x0C) := by
  unfold csrAt
  by_cases h0 : off = 0x00
  · simp [h0]
  by_cases h4 : off = 0x04
  · simp [h4]
  by_cases h8 : off = 0x08
  · simp [h8]
  by_cases hc : off = 0x0C
  · simp [hc]
  · simp [h0, h4, h8, hc]

/-- A read of the OUT space changes the draw counter and the replies only. -/
theorem outReadReply_eq (s : State) (j : Nat) : ∃ n b,
    outReadReply s j = { s with draws := n, replies := s.replies ++ [.byte b] } := by
  unfold outReadReply
  split
  · exact ⟨_, _, rfl⟩
  · exact ⟨_, _, rfl⟩

/-- Everything an access of the host can do when it is not refused. -/
theorem hostAccess_next_cases {a : HostAccess} {s t : State} (h : hostAccess a s = .next t) :
    ((∃ w off, a = .csrRead w off ∧ csrShapeOk w off = true) ∧
      ∃ v, t = s.reply (.word v)) ∨
    (∃ i, a = .inRead i ∧ i < s.cfg.maxLen ∧ t = s.reply (.byte (memRead s i))) ∨
    (∃ j, a = .outRead j ∧ j < s.cfg.maxOut ∧ t = outReadReply s j) ∨
    (∃ v, a = .csrWrite .word 0x00 v ∧ writeCmd v s = .next t) ∨
    (∃ v, a = .csrWrite .word 0x08 v ∧ v.toNat ≤ s.cfg.maxLen ∧ t = { s with inLen := v }) ∨
    (∃ w off v, a = .csrWrite w off v ∧ off ≠ 0x00 ∧ off ≠ 0x08 ∧ t = s) ∨
    (∃ i v, a = .inWrite i v ∧ i < s.cfg.maxLen ∧ t = { s with inMem := s.inMem.write i v }) ∨
    (∃ j v, a = .outWrite j v ∧ j < s.cfg.maxOut ∧ t = s) ∨
    (a = .reset ∧ t = applyReset s) := by
  cases a with
  | csrRead w off =>
    simp only [hostAccess] at h
    split at h
    · cases h; exact .inl ⟨⟨w, off, rfl, ‹_›⟩, _, rfl⟩
    · cases h
  | csrWrite w off v =>
    simp only [hostAccess] at h
    split at h
    · rename_i hs
      obtain ⟨rfl, -⟩ := (csrShapeOk_iff w off).mp hs
      obtain ⟨e, rfl⟩ | ⟨e, rfl⟩ | ⟨e, rfl⟩ | ⟨e, rfl⟩ | ⟨e, h0, -, h8, -⟩ := csrAt_cases off <;>
        simp only [writeCsr, e] at h
      · exact .inr (.inr (.inr (.inl ⟨v, rfl, h⟩)))
      · cases h
        exact .inr (.inr (.inr (.inr (.inr (.inl ⟨_, _, _, rfl, by decide, by decide, rfl⟩)))))
      · unfold writeInLen at h
        split at h
        · cases h; exact .inr (.inr (.inr (.inr (.inl ⟨v, rfl, ‹_›, rfl⟩))))
        · cases h
      · cases h
        exact .inr (.inr (.inr (.inr (.inr (.inl ⟨_, _, _, rfl, by decide, by decide, rfl⟩)))))
      · cases h
        exact .inr (.inr (.inr (.inr (.inr (.inl ⟨_, _, _, rfl, h0, h8, rfl⟩)))))
    · cases h
  | inRead i =>
    simp only [hostAccess] at h
    split at h
    · cases h; exact .inr (.inl ⟨i, rfl, ‹_›, rfl⟩)
    · cases h
  | inWrite i v =>
    simp only [hostAccess] at h
    split at h
    · cases h
      exact .inr (.inr (.inr (.inr (.inr (.inr (.inl ⟨i, v, rfl, ‹_›, rfl⟩))))))
    · cases h
  | outRead j =>
    simp only [hostAccess] at h
    split at h
    · cases h; exact .inr (.inr (.inl ⟨j, rfl, ‹_›, rfl⟩))
    · cases h
  | outWrite j v =>
    simp only [hostAccess] at h
    split at h
    · cases h
      exact .inr (.inr (.inr (.inr (.inr (.inr (.inr (.inl ⟨j, v, rfl, ‹_›, rfl⟩)))))))
    · cases h
  | reset =>
    cases h
    exact .inr (.inr (.inr (.inr (.inr (.inr (.inr (.inr ⟨rfl, rfl⟩)))))))

/-- A step serves the first pending access. -/
theorem step_of_pending {s : State} {a : HostAccess} {rest : List HostAccess}
    (h : s.pending = a :: rest) : step s = hostAccess a { s with pending := rest } := by
  simp only [step, serveHost, h]

/-- What a step that answers a next state did: nothing was pending, or it served the first access. -/
theorem step_next_cases {s t : State} (h : step s = .next t) :
    (s.pending = [] ∧ t = s) ∨
    ∃ a rest, s.pending = a :: rest ∧ hostAccess a { s with pending := rest } = .next t := by
  cases hp : s.pending with
  | nil =>
    simp only [step, serveHost, hp] at h
    cases h
    exact .inl ⟨rfl, rfl⟩
  | cons a rest => exact .inr ⟨a, rest, rfl, step_of_pending hp ▸ h⟩

/-- One more step of a run. -/
theorem run_succ (n : Nat) {s t : State} (h : step s = .next t) :
    Sys2Proof.core.run (n + 1) s = Sys2Proof.core.run n t := by
  have hc : Sys2Proof.core.step s = .next t := h
  simp only [Host.Core.run, hc]

end Sys2Proof.Machine
end

