-- ==== Sys2Proof/Tests/Slice0.lean ====
section
/-! SUPPORT. The model's own tests: words written out from 30_encoding.md R70 and R71, ill-formed terms
refused, vectors of 95_test_vectors.md, and for each obligation with hypotheses a state that meets
them. -/

open Sys2Proof Sys2Proof.Machine

namespace Sys2Proof.Tests

/-- After reset, with the input bytes `bs` loaded and the parameters `c`. -/
def loaded (c : Config) (bs : List Byte) : State :=
  { State.reset with cfg := c, inMem := Memory.writeFrom [] 0 bs, inLen := BitVec.ofNat 32 bs.length }

def strict : Config := Config.default
def lenient : Config := { Config.default with padCheck := .lenient }
def lengthFirst : Config := { Config.default with errOrder := .lengthFirst }

/-- After reset, with the host's accesses `l` pending. -/
def hosted (l : List HostAccess) : State := { State.reset with pending := l }

/-- What a command left: the code, `OUT_LEN` and the specified bytes of `OUT_MEM`. -/
def left (o : Host.Outcome State Fault Refusal) : Option (BitVec 3 × Word × List Byte) :=
  match o with
  | .next t    => some (t.code, t.outLen, t.outMem.map Prod.snd)
  | .fault _   => none
  | .refused _ => none

def refusal (o : Host.Outcome State Fault Refusal) : Option Refusal :=
  match o with
  | .refused r => some r
  | .next _    => none
  | .fault _   => none

def replies (o : Host.Outcome State Fault Refusal) : List Reply :=
  match o with
  | .next t    => t.replies
  | .fault _   => []
  | .refused _ => []

-- ## Decoding: bits 31..3 RSVD, bits 2..0 OP (R70, R71)

theorem test_decode_encodeBytes : decode 0b00000000000000000000000000000001 = .ok .encodeBytes := by decide
theorem test_decode_decodeBytes : decode 0b00000000000000000000000000000010 = .ok .decodeBytes := by decide
theorem test_decode_encodeText : decode 0b00000000000000000000000000000011 = .ok .encodeText := by decide
theorem test_decode_decodeText : decode 0b00000000000000000000000000000100 = .ok .decodeText := by decide
/-- H7, H8: a set `RSVD` bit is no command. -/
theorem test_decode_rsvd : decode 0x00000009 = .error .reservedBits ∧
    decode 0x80000002 = .error .reservedBits := by decide
/-- H5, H6. -/
theorem test_decode_reserved_op : decode 0 = .error .reservedOp ∧ decode 5 = .error .reservedOp ∧
    decode 6 = .error .reservedOp ∧ decode 7 = .error .reservedOp := by decide
theorem test_decodeTableWord : decodeTableWord 32 4 = some .decodeText ∧
    decodeTableWord 32 5 = none := by decide
/-- The command placed by `withFetchWord` is the first to run after reset: E1. -/
theorem test_withFetchWord : left (step (State.reset.withFetchWord 32 1)) = some (2, 0, []) := by decide

-- ## Well-formedness: one ill-formed term for each check (R5, R205)

theorem smoke_config_ok : strict.wellFormed ∧ lenient.wellFormed := by decide
theorem smoke_maxLen_too_small : ¬ Config.wellFormed { strict with maxLen := 3 } := by decide
theorem smoke_maxOut_too_large : ¬ Config.wellFormed { strict with maxLen := 2 ^ 32 } := by decide
theorem smoke_ws_lacks_space : ¬ Config.wellFormed { strict with wsSet := [0x09] } := by decide
theorem smoke_ws_holds_symbol : ¬ Config.wellFormed { strict with wsSet := [0x20, 0x41] } := by decide
theorem smoke_ws_holds_pad : ¬ Config.wellFormed { strict with wsSet := [0x20, 0x3D] } := by decide
theorem smoke_ws_not_rising : ¬ Config.wellFormed { strict with wsSet := [0x20, 0x09] } := by decide
theorem smoke_csr_subword : HostAccess.wellFormed strict (.csrRead .half 0x04) = false := by decide
theorem smoke_csr_misaligned : HostAccess.wellFormed strict (.csrWrite .word 0x06 0) = false := by decide
theorem smoke_inLen_over : HostAccess.wellFormed strict (.csrWrite .word 0x08 4097) = false := by decide
theorem smoke_in_range : HostAccess.wellFormed strict (.inRead 4096) = false ∧
    HostAccess.wellFormed strict (.inWrite 4096 0) = false := by decide
theorem smoke_out_range : HostAccess.wellFormed strict (.outRead 5464) = false ∧
    HostAccess.wellFormed strict (.outWrite 5464 0) = false := by decide
theorem smoke_memory_not_rising : ¬ Memory.wf [(1, 0), (1, 0)] ∧ ¬ Memory.wf [(2, 0), (1, 0)] := by decide
theorem smoke_instr : Instr.wellFormed .encodeBytes = true := by decide

-- ## Tables (L1 to L24)

theorem test_alpha : alpha 0 = 0x41 ∧ alpha 25 = 0x5A ∧ alpha 26 = 0x61 ∧ alpha 51 = 0x7A ∧
    alpha 52 = 0x30 ∧ alpha 61 = 0x39 ∧ alpha 62 = 0x2B ∧ alpha 63 = 0x2F := by decide
theorem test_s2i : s2i 0x41 = 0x40 ∧ s2i 0x7A = 0x73 ∧ s2i 0x39 = 0x7D ∧ s2i 0x2F = 0x7F ∧
    s2i 0x3D = 0 ∧ s2i 0x40 = 0 ∧ s2i 0x5B = 0 ∧ s2i 0xFF = 0 := by decide

-- ## Commands (95_test_vectors.md section 2)

/-- E6. -/
theorem test_encodeBytes_two : left (exec .encodeBytes (loaded strict [0xFB, 0xFF])) =
    some (1, 4, [0x2B, 0x2F, 0x38, 0x3D]) := by decide
/-- E13. -/
theorem test_encodeBytes_four : left (exec .encodeBytes (loaded strict [0x66, 0x6F, 0x6F, 0x62])) =
    some (1, 8, [0x5A, 0x6D, 0x39, 0x76, 0x59, 0x67, 0x3D, 0x3D]) := by decide
/-- D3 and D9. -/
theorem test_decodeBytes_pads :
    left (exec .decodeBytes (loaded strict [0x54, 0x57, 0x45, 0x3D])) = some (1, 2, [0x4D, 0x61]) ∧
    left (exec .decodeBytes (loaded strict [0x54, 0x52, 0x3D, 0x3D])) = some (1, 1, [0x4D]) := by decide
/-- D28 under both modes, D20 under both orders. -/
theorem test_decodeBytes_parameters :
    left (exec .decodeBytes (loaded strict [0x54, 0x51, 0x3D, 0x3D, 0x54, 0x57, 0x46, 0x75])) =
      some (5, 0, []) ∧
    left (exec .decodeBytes (loaded lenient [0x54, 0x51, 0x3D, 0x3D, 0x54, 0x57, 0x46, 0x75])) =
      some (1, 4, [0x4D, 0x4D, 0x61, 0x6E]) ∧
    left (exec .decodeBytes (loaded strict [0x54, 0x57, 0x46, 0x21, 0x75])) = some (4, 0, []) ∧
    left (exec .decodeBytes (loaded lengthFirst [0x54, 0x57, 0x46, 0x21, 0x75])) =
      some (3, 0, []) := by decide
/-- T1, T2. -/
theorem test_encodeText_blank : left (exec .encodeText (loaded strict [])) = some (1, 0, []) ∧
    left (exec .encodeText (loaded strict [0x20, 0x20, 0x20])) =
      some (1, 3, [0x20, 0x20, 0x20]) := by decide
/-- T4. -/
theorem test_encodeText_space : left (exec .encodeText (loaded strict [0x20, 0x4D])) =
    some (1, 4, [0x49, 0x45, 0x30, 0x3D]) := by decide
/-- T10, T13. -/
theorem test_decodeText_blank :
    left (exec .decodeText (loaded strict [0x20, 0x20, 0x20, 0x20])) =
      some (1, 4, [0x20, 0x20, 0x20, 0x20]) ∧
    left (exec .decodeText (loaded strict [0x54, 0x51, 0x3D, 0x3D])) = some (1, 1, [0x4D]) := by decide
/-- T15, T16. -/
theorem test_decodeText_errors :
    left (exec .decodeText (loaded strict [0x4D, 0x61, 0x6E])) = some (3, 0, []) ∧
    left (exec .decodeText (loaded strict [0x54, 0x51, 0x3D, 0x41])) = some (5, 0, []) := by decide

/-- A command runs on a byte the host never wrote (U15): one window, whatever the byte is. -/
theorem test_encodeBytes_unwritten :
    (match exec .encodeBytes { State.reset with inLen := 1 } with
     | .next t => t.code = 1 ∧ t.outLen = 4 ∧ t.outMem.read? 3 = some 0x3D
     | .fault _ => False
     | .refused _ => False) := by
  refine ⟨by decide, by decide, rfl⟩

-- ## Host accesses (H1 to H16)

/-- H14, H15. -/
theorem test_refused : refusal (step (hosted [wr .inLen 4097])) = some .inLenOverRange ∧
    refusal (step (hosted [.inRead 4096])) = some .inIndexOutOfRange ∧
    refusal (step (hosted [.outWrite 5464 0])) = some .outIndexOutOfRange ∧
    refusal (step (hosted [.csrRead .byte 0x04])) = some .csrAccessShape := by decide
/-- A read of `STATUS` returns the code in bits 2:0. -/
theorem test_status_read : replies (step { hosted [rd .status] with status := 5 }) = [.word 5] := by decide
/-- H4, H1. -/
theorem test_csr_reads : replies (step (hosted [.csrRead .word 0x10])) = [.word 0] ∧
    replies (step { hosted [rd .cmd] with inLen := 3 }) = [.word 0] := by decide
/-- The transactions of P1 up to its `run`, and those of `result` (R77). -/
theorem test_notation : load [0x4D, 0x61] ++ runCommand .decodeText =
    [.inWrite 0 0x4D, .inWrite 1 0x61, .csrWrite .word 0x08 2, .csrWrite .word 0x00 4] ∧
    result 1 = [.csrRead .word 0x04, .csrRead .word 0x0C, .outRead 0] := by decide

/-- `load "Man"` of S1 and `load "TQ=A"`, as 95_test_vectors.md expands them; an accented letter has no
ASCII code. -/
theorem test_loadChars :
    loadChars "Man" = some [.inWrite 0 0x4D, .inWrite 1 0x61, .inWrite 2 0x6E, .csrWrite .word 0x08 3] ∧
    loadChars "TQ=A" = some [.inWrite 0 0x54, .inWrite 1 0x51, .inWrite 2 0x3D, .inWrite 3 0x41,
      .csrWrite .word 0x08 4] ∧
    loadChars "a\u00e9" = none := by decide

-- ## A state for the hypotheses of each obligation

theorem witness_DecodeReadsOpAndRsvd :
    (4 : Word).extractLsb' 3 29 = 0 ∧ (4 : Word).extractLsb' 0 3 = opcode .decodeText := by decide
/-- Words 1 and 4 at the ends of the command range, 0 and 5 just outside it. -/
theorem witness_CmdWriteRunsOrIsBadCommand :
    (∀ w : Word, (hosted [.csrWrite .word 0x00 w]).pending = .csrWrite .word 0x00 w :: []) ∧
    ((0 : Word) ≠ 1 ∧ (0 : Word) ≠ 2 ∧ (0 : Word) ≠ 3 ∧ (0 : Word) ≠ 4) ∧
    ((5 : Word) ≠ 1 ∧ (5 : Word) ≠ 2 ∧ (5 : Word) ≠ 3 ∧ (5 : Word) ≠ 4) :=
  ⟨fun _ => rfl, by decide, by decide⟩
theorem witness_StepRunsTheDecodedCommand :
    (hosted [.csrWrite .word 0x00 4]).pending = .csrWrite .word 0x00 4 :: [] ∧
    decode 4 = .ok .decodeText := by decide
theorem witness_FetchWordIsTheNextCommand : decodeTableWord 32 2 = some .decodeBytes := by decide
/-- The ranges of the closed form at their ends. -/
theorem witness_AlphabetLutContents : (25 : Idx).toNat ≤ 25 ∧ 26 ≤ (26 : Idx).toNat ∧
    (51 : Idx).toNat ≤ 51 ∧ 52 ≤ (52 : Idx).toNat ∧ (61 : Idx).toNat ≤ 61 := by decide
theorem witness_AlphabetIsInjective : alpha 63 = alpha 63 := rfl
theorem witness_SymbolToIndexLutContents : alpha 62 = 0x2B ∧ ∀ i : Idx, alpha i ≠ 0x2C := by decide
theorem witness_TablesAreInverse : classify 0x2F = some (.sym 63) := by decide
theorem witness_ClassifySortsEveryByte : classify 0x3D = some .pad ∧ classify 0x21 = none := by decide
/-- A full, a two-byte and a one-byte window. -/
theorem witness_EncodeSeqByWindows : 3 * 0 < [0x4D, 0x61, 0x6E].length ∧
    [0x4D, 0x61, 0x6E, 0x4D, 0x61].length - 3 * 1 = 2 ∧
    [0x4D, 0x61, 0x6E, 0x4D].length - 3 * 1 = 1 := by decide
theorem witness_EncodeLengthAndPaddingLaws : 1 ≤ ([0x4D] : List Byte).length ∧
    ([0x4D] : List Byte).length ≤ strict.maxLen ∧ ([0x4D] : List Byte).length % 3 = 1 ∧
    ([0x4D, 0x61] : List Byte).length % 3 = 2 ∧ ([0x4D, 0x61, 0x6E] : List Byte).length % 3 = 0 := by decide
/-- The last clause at the smallest legal buffer, filled. -/
theorem witness_EncodeBytesResult : (loaded strict []).inLen = 0 ∧
    (let s := loaded { strict with maxLen := 4 } [1, 2, 3, 4]
     s.inLen ≠ 0 ∧ s.cfg.wellFormed ∧ s.inLen.toNat = s.cfg.maxLen) := by decide
theorem witness_EncodeBytesStreamOrder : 3 * 0 + 2 < (loaded strict [1, 2, 3]).inLen.toNat := by decide
theorem witness_LeadingPadIsRejectedInBothModes :
    ([] : List MappedValue).length % 4 = 0 ∧ (MappedValue.pad = .pad ∨ MappedValue.sym 0 = .pad) := by decide
theorem witness_StrictAcceptsOnlyTrailingPads :
    [MappedValue.sym 0, .sym 1, .pad, .pad].length % 4 = 0 ∧
    [MappedValue.sym 0, .sym 1, .pad, .pad] ≠ [] := by decide
theorem witness_LenientDecodesQuartetsIndependently :
    [MappedValue.sym 0, .sym 1, .pad, .sym 2].length % 4 = 0 ∧
    decodeSeq .lenient [.sym 0, .sym 16, .pad, .sym 2] = .ok [1] := by decide
theorem witness_UnusedLowBitsAreIgnored : ([] : List Idx).length % 4 = 0 ∧
    (16 : Idx).extractLsb' 4 2 = (17 : Idx).extractLsb' 4 2 ∧
    (4 : Idx).extractLsb' 2 4 = (5 : Idx).extractLsb' 2 4 := by decide
theorem witness_DecodeOutputLength :
    base64Decoder strict [0x54, 0x51, 0x3D, 0x3D] = .ok [0x4D] ∧ strict.padCheck = .strict := by decide
/-- One state for each of the five clauses. -/
theorem witness_DecodeBytesResult : (loaded strict []).inLen = 0 ∧
    (let s := loaded strict [0x54, 0x57, 0x21, 0x75]; s.inLen ≠ 0 ∧ SymBad s ∧ ¬ LenBad s) ∧
    (let s := loaded lengthFirst [0x21]
     s.inLen ≠ 0 ∧ SymBad s ∧ LenBad s ∧ s.cfg.errOrder = .lengthFirst) ∧
    (let s := loaded strict [0x54, 0x51, 0x3D, 0x41]
     s.inLen ≠ 0 ∧ ¬ SymBad s ∧ ¬ LenBad s ∧ PadBad s) ∧
    (let s := loaded lenient [0x54, 0x51, 0x3D, 0x41]
     s.inLen ≠ 0 ∧ ¬ SymBad s ∧ ¬ LenBad s ∧ ¬ PadBad s) := by decide
/-- `s₂` is loaded with the output at `s₁`. -/
theorem witness_DecodeBytesInvertsEncodeBytes :
    let s₁ := loaded strict [0x4D]
    let s₂ := loaded lenient [0x54, 0x51, 0x3D, 0x3D]
    s₁.cfg.wellFormed ∧ s₁.inLen ≠ 0 ∧ s₁.inLen.toNat ≤ s₁.cfg.maxLen ∧
    ∃ t₁, exec .encodeBytes s₁ = .next t₁ ∧ s₂.inLen = t₁.outLen ∧
      ∀ j < t₁.outLen.toNat, t₁.outMem.read? j = some (memRead s₂ j) := by
  refine ⟨by decide, by decide, by decide, _, rfl, by decide, by decide⟩
theorem witness_EncodeTextResult : BlankInput (loaded strict []) ∧ BlankInput (loaded strict [0x20]) ∧
    ¬ BlankInput (loaded strict [0x20, 0x4D]) := by decide
theorem witness_DecodeTextResult : BlankInput (loaded strict [0x0D]) ∧
    ¬ BlankInput (loaded strict [0x54, 0x51, 0x3D, 0x3D]) := by decide
theorem witness_DecodeTextInvertsEncodeText :
    let s₁ := loaded strict [0x4D]
    let s₂ := loaded lenient [0x54, 0x51, 0x3D, 0x3D]
    s₁.cfg.wellFormed ∧ s₁.inLen.toNat ≤ s₁.cfg.maxLen ∧ s₂.cfg.wsSet = s₁.cfg.wsSet ∧
    ∃ t₁, exec .encodeText s₁ = .next t₁ ∧ s₂.inLen = t₁.outLen ∧
      ∀ j < t₁.outLen.toNat, t₁.outMem.read? j = some (memRead s₂ j) := by
  refine ⟨by decide, by decide, by decide, _, rfl, by decide, by decide⟩
/-- A command that ends without `OK`. -/
theorem witness_CommandFrameAndNoPartialOutput :
    ∃ t, exec .encodeBytes (loaded strict []) = .next t ∧ t.code ≠ 1 := ⟨_, rfl, by decide⟩
/-- Two states that differ in status, output and a byte at `IN_LEN`. -/
theorem witness_OutcomeDependsOnlyOnTheInput :
    let s := loaded strict [0x4D]
    let s' := { s with status := 4, outMem := [(0, 1)], outLen := 1, inMem := [(0, 0x4D), (1, 9)] }
    s'.cfg = s.cfg ∧ s'.inLen = s.inLen ∧ ∀ j < s.inLen.toNat, memRead s' j = memRead s j := by decide
/-- The clauses at their boundary: the last legal length and the first over it, offsets 0x0C and 0x10. -/
theorem witness_CsrSpaceAccesses :
    (hosted [.csrRead .word 0x10]).pending = .csrRead .word 0x10 :: [] ∧
    (hosted [.csrWrite .word 0x0C 1]).pending = .csrWrite .word 0x0C 1 :: [] ∧
    ¬ (Width.half = .word ∧ 0x04 % 4 = 0) ∧ ¬ (Width.word = .word ∧ 0x06 % 4 = 0) ∧
    (4096 : Word).toNat ≤ State.reset.cfg.maxLen ∧ State.reset.cfg.maxLen < (4097 : Word).toNat := by decide
theorem witness_InSpaceAccesses :
    (hosted [.inRead 4095]).pending = .inRead 4095 :: [] ∧
    (hosted [.inWrite 4095 1]).pending = .inWrite 4095 1 :: [] ∧
    4095 < State.reset.cfg.maxLen ∧ State.reset.cfg.maxLen ≤ 4096 := by decide
theorem witness_OutSpaceAccesses :
    (hosted [.outRead 5463]).pending = .outRead 5463 :: [] ∧
    (hosted [.outWrite 5463 1]).pending = .outWrite 5463 1 :: [] ∧
    5463 < State.reset.cfg.maxOut ∧ State.reset.cfg.maxOut ≤ 5464 ∧
    ({ State.reset with outMem := [(0, 7)] } : State).outMem.read? 0 = some 7 := by decide
/-- One refused access and one that runs. -/
theorem witness_RefusedExactlyOutsideTheInterface :
    (hosted [.inRead 4096]).pending = .inRead 4096 :: [] ∧
    HostAccess.wellFormed State.reset.cfg (.inRead 4096) = false ∧
    (hosted [.inRead 4095]).pending = .inRead 4095 :: [] ∧
    HostAccess.wellFormed State.reset.cfg (.inRead 4095) = true := by decide
theorem witness_ReadsLeaveTheBlockUnchanged :
    (hosted [.outRead 0]).pending = .outRead 0 :: [] ∧ ∃ t, step (hosted [.outRead 0]) = .next t :=
  ⟨rfl, _, rfl⟩
/-- By a command, and by reset. -/
theorem witness_OnlyCommandsAndResetWriteTheOutcome :
    (∃ t, step (hosted [wr .cmd 1]) = .next t ∧ t.status ≠ (hosted [wr .cmd 1]).status) ∧
    (∃ t, step { hosted [.reset] with outLen := 3 } = .next t ∧ t.outLen ≠ 3) :=
  ⟨⟨_, rfl, by decide⟩, ⟨_, rfl, by decide⟩⟩
theorem witness_OnlyTheHostWritesTheInput :
    (∃ t, step (hosted [wr .inLen 4096]) = .next t ∧
      (∀ rest, (hosted [wr .inLen 4096]).pending ≠ .reset :: rest) ∧
      t.inLen ≠ (hosted [wr .inLen 4096]).inLen) ∧
    (let s := { hosted [.inWrite 0 2] with inMem := [(0, 1)] }
     ∃ t, step s = .next t ∧ (∀ rest, s.pending ≠ .reset :: rest) ∧ memRead t 0 ≠ memRead s 0) :=
  ⟨⟨_, rfl, nofun, by decide⟩, ⟨_, rfl, nofun, by decide⟩⟩
theorem witness_AccessesAreServedInOrder :
    (hosted [rd .status, wr .cmd 0]).pending = rd .status :: [wr .cmd 0] ∧
    ∃ t, step (hosted [rd .status, wr .cmd 0]) = .next t := ⟨rfl, _, rfl⟩
theorem witness_IdleBlockHoldsItsState : State.reset.pending = [] := rfl
/-- A full buffer and no byte at all. -/
theorem witness_LoadMakesItsBytesTheInput :
    (let s := { hosted (load [1, 2, 3, 4]) with cfg := { strict with maxLen := 4 } }
     s.cfg.wellFormed ∧ ([1, 2, 3, 4] : List Byte).length ≤ s.cfg.maxLen ∧
     s.pending = load [1, 2, 3, 4] ++ []) ∧
    (hosted (load [])).pending = load [] ++ [] := by decide
/-- A text that fills the buffer and the empty text; 0x7F is the last ASCII character. -/
theorem witness_LoadCharsMakesTheirCodesTheInput :
    (let s := { hosted (load [0x54, 0x51, 0x3D, 0x7F]) with cfg := { strict with maxLen := 4 } }
     loadChars "TQ=\u007f" = some (load [0x54, 0x51, 0x3D, 0x7F]) ∧ s.cfg.wellFormed ∧
     "TQ=\u007f".toList.length ≤ s.cfg.maxLen ∧ s.pending = load [0x54, 0x51, 0x3D, 0x7F] ++ []) ∧
    loadChars "" = some (load []) := by decide
/-- After a decode to the one byte 0x4D. -/
theorem witness_CopybackFeedsTheOutputBack :
    let s := { hosted (copyback [0x4D]) with status := 1, outLen := 1, outMem := [(0, 0x4D)] }
    Inv s ∧ s.outLen = BitVec.ofNat 32 [0x4D].length ∧
    (∀ j, s.outMem.read? j = ([0x4D] : List Byte)[j]?) ∧
    ([0x4D] : List Byte).length ≤ s.cfg.maxLen ∧ s.pending = copyback [0x4D] ++ [] := by
  refine ⟨⟨by decide, by decide, by decide, by decide, by decide, by decide, by decide, by decide,
    by decide⟩, by decide, fun j => ?_, by decide, by decide⟩
  cases j with
  | zero => rfl
  | succ j => rfl
theorem witness_ResultReadsTheOutput :
    let s := { hosted (result 1) with status := 1, outLen := 1, outMem := [(0, 0x4D)] }
    (∀ j, s.outMem.read? j = ([0x4D] : List Byte)[j]?) ∧ ([0x4D] : List Byte).length ≤ s.cfg.maxOut ∧
    s.pending = result [0x4D].length ++ [] := by
  refine ⟨fun j => ?_, by decide, by decide⟩
  cases j with
  | zero => rfl
  | succ j => rfl
theorem witness_ResetGivesTheResetValues :
    ({ hosted [.reset] with status := 1, inLen := 3 } : State).pending = .reset :: [] := rfl
/-- From a state that holds input and output. -/
theorem witness_EveryStepKeepsTheInvariant :
    let s := { loaded strict [0x4D] with pending := [wr .cmd 1], status := 1, outLen := 1, outMem := [(0, 7)] }
    Inv s ∧ ∃ t, step s = .next t := by
  refine ⟨⟨by decide, by decide, by decide, by decide, by decide, by decide, by decide, by decide,
    by decide⟩, _, rfl⟩
theorem witness_NoStepChangesTheParameters : ∃ t, step (hosted [.reset]) = .next t := ⟨_, rfl⟩

end Sys2Proof.Tests
end

section
/-! PROOFS. What a command leaves, said once for every command: the result it ends with, how long that is, and
what `finish` makes of it. -/

namespace Sys2Proof.Machine

/-- The result (R10) of each command, as a function of the parameters and the input bytes alone. -/
def commandResult (i : Instr) (c : Config) (inp : List Byte) : Except ErrKind (List Byte) :=
  match i with
  | .encodeBytes => base64Encoder inp
  | .decodeBytes => base64Decoder c inp
  | .encodeText  => .ok (if blank c.wsSet inp then inp else encodeSeq inp)
  | .decodeText  => if blank c.wsSet inp then .ok inp else base64Decoder c inp

/-- Every command ends by `finish` of its result. -/
theorem exec_eq_finish (i : Instr) (s : State) :
    exec i s = .next (finish (commandResult i s.cfg (inputBytes s)) s) := by
  cases i with
  | encodeBytes => rfl
  | decodeBytes => rfl
  | encodeText =>
    simp only [exec, execEncodeText, commandResult]
    split
    · rfl
    · rfl
  | decodeText =>
    simp only [exec, execDecodeText, commandResult]
    split
    · rfl
    · rfl

-- ## The length of a result

/-- R124: one Quartet for each window of three bytes, the last window included. -/
theorem encodeSeq_length (inp : List Byte) : (encodeSeq inp).length = 4 * ((inp.length + 2) / 3) := by
  induction inp using encodeSeq.induct with
  | case1 a b c rest ih =>
    simp only [encodeSeq, encodeGroup3, List.length_append, List.length_cons, List.length_nil, ih]
    omega
  | case2 a b => simp [encodeSeq, encodeGroup2]
  | case3 a => simp [encodeSeq, encodeGroup1]
  | case4 => simp [encodeSeq]

/-- A Triplet has at most three bytes (R146). -/
theorem decodeGroup_length_le (q : Quartet) : (decodeGroup q).length ≤ 3 := by
  unfold decodeGroup
  split
  · split
    · simp
    · split
      · simp
      · simp
  · simp

/-- What a successful `DecodeSeq` gives: the Triplets in order (R149). -/
theorem decodeSeq_eq_ok {mode : PadCheck} {m : List MappedValue} {out : List Byte}
    (h : decodeSeq mode m = .ok out) : out = (quartets m).flatMap decodeGroup := by
  simp only [decodeSeq] at h
  split at h
  · cases h
  · split at h
    · cases h
    · cases h; rfl

/-- A successful decode gives the Triplets of the mapped input (R150). -/
theorem base64Decoder_eq_ok {c : Config} {inp out : List Byte} (h : base64Decoder c inp = .ok out) :
    out = (quartets ((inp.map classify).filterMap id)).flatMap decodeGroup := by
  simp only [base64Decoder, mapPass] at h
  split at h
  · cases h
  · split at h
    · cases h
    · exact decodeSeq_eq_ok h

/-- The Triplets of `n` Quartets have at most `3 * n` bytes. -/
theorem flatMap_decodeGroup_length_le (qs : List Quartet) :
    (qs.flatMap decodeGroup).length ≤ 3 * qs.length := by
  induction qs with
  | nil => simp
  | cons q qs ih =>
    have := decodeGroup_length_le q
    simp only [List.flatMap_cons, List.length_append, List.length_cons]
    omega

/-- R151: a decode gives at most three bytes for each four of its input. -/
theorem base64Decoder_length_le {c : Config} {inp out : List Byte} (h : base64Decoder c inp = .ok out) :
    out.length ≤ 3 * (inp.length / 4) := by
  have hm : ((inp.map classify).filterMap id).length ≤ inp.length :=
    (List.length_filterMap_le _ _).trans_eq (List.length_map _)
  have hq := quartets_length ((inp.map classify).filterMap id)
  have ho := flatMap_decodeGroup_length_le (quartets ((inp.map classify).filterMap id))
  rw [base64Decoder_eq_ok h]
  omega

/-- No command gives more bytes than the encoder does on the same input. -/
theorem commandResult_length_le {i : Instr} {c : Config} {inp out : List Byte}
    (h : commandResult i c inp = .ok out) : out.length ≤ 4 * ((inp.length + 2) / 3) := by
  have hdec (hd : base64Decoder c inp = .ok out) : out.length ≤ 4 * ((inp.length + 2) / 3) := by
    have := base64Decoder_length_le hd
    omega
  cases i with
  | encodeBytes =>
    simp only [commandResult, base64Encoder] at h
    split at h
    · cases h
    · cases h; exact (encodeSeq_length inp).le
  | decodeBytes => exact hdec h
  | encodeText =>
    simp only [commandResult] at h
    cases h
    split
    · omega
    · exact (encodeSeq_length inp).le
  | decodeText =>
    simp only [commandResult] at h
    split at h
    · cases h; omega
    · exact hdec h

/-- `P_MAX_OUT` (R5) bounds the output for every input that fits the buffer. -/
theorem encodedLength_le_maxOut {c : Config} {n : Nat} (h : n ≤ c.maxLen) : 4 * ((n + 2) / 3) ≤ c.maxOut := by
  unfold Config.maxOut
  omega

-- ## The end of a command

/-- Both ends of a command leave its frame (R35). -/
theorem finish_frame (r : Except ErrKind (List Byte)) (s : State) : CommandFrame s (finish r s) := by
  cases r with
  | ok out => exact complete_frame out s
  | error k => exact raise_frame k s

/-- No error kind has the code of a success. -/
theorem ErrKind.code_ne_ok (k : ErrKind) : k.code ≠ okCode := by
  cases k <;> decide

/-- No error kind has the code 7 (R25). -/
theorem ErrKind.code_ne_seven (k : ErrKind) : k.code ≠ 7 := by
  cases k <;> decide

/-- A command that does not end with `OK` leaves no output (R181). -/
theorem finish_no_output {r : Except ErrKind (List Byte)} {s : State} (h : (finish r s).code ≠ okCode) :
    (finish r s).outLen = 0 ∧ (finish r s).outMem = [] := by
  cases r with
  | ok out => exact absurd (complete_code s out) h
  | error k => exact ⟨rfl, rfl⟩

/-- The code, `OUT_LEN` and `OUT_MEM` a command leaves are those of its result, from every state. -/
theorem finish_outcome_congr (r : Except ErrKind (List Byte)) (s s' : State) :
    (finish r s').code = (finish r s).code ∧ (finish r s').outLen = (finish r s).outLen ∧
      (finish r s').outMem = (finish r s).outMem := by
  cases r with
  | ok out => exact ⟨(complete_code s' out).trans (complete_code s out).symm, rfl, rfl⟩
  | error k => exact ⟨(raise_code s' k).trans (raise_code s k).symm, rfl, rfl⟩

/-- A write to `CMD` ends by `finish` of a result no longer than the encoder's. -/
theorem writeCmd_finish_length_le (w : Word) (s : State) : ∃ r, writeCmd w s = .next (finish r s) ∧
    ∀ out, r = .ok out → out.length ≤ 4 * ((s.inLen.toNat + 2) / 3) := by
  unfold writeCmd
  split
  · next i _ =>
    exact ⟨_, exec_eq_finish i s, fun out h => inputBytes_length s ▸ commandResult_length_le h⟩
  · exact ⟨.error .badCommand, rfl, nofun⟩

/-- A write to `CMD` of a command's word is that command (R72). -/
theorem writeCmd_of_decode {w : Word} {i : Instr} (h : decode w = .ok i) (s : State) :
    writeCmd w s = exec i s := by
  simp only [writeCmd, h]

end Sys2Proof.Machine
end

section
/-! PROOFS. What a step does to the block, in the five kinds that the invariants tell apart. -/

namespace Sys2Proof.Machine

/-- The effect of one step on the block: none, a command's end, a new `IN_LEN`, a new byte of `IN_MEM`, or
the reset values. Each kind names the access that was served. -/
inductive StepEffect (s t : State) : Prop where
  | unchanged (hb : SameBlock s t)
  | command (w : Word) (rest : List HostAccess) (r : Except ErrKind (List Byte))
      (hp : s.pending = .csrWrite .word 0x00 w :: rest)
      (hr : ∀ out, r = .ok out → out.length ≤ 4 * ((s.inLen.toNat + 2) / 3))
      (ht : t = finish r { s with pending := rest })
  | inLen (v : Word) (rest : List HostAccess) (hp : s.pending = .csrWrite .word 0x08 v :: rest)
      (hv : v.toNat ≤ s.cfg.maxLen) (ht : t = { s with pending := rest, inLen := v })
  | inByte (i : Nat) (v : Byte) (rest : List HostAccess) (hp : s.pending = .inWrite i v :: rest)
      (hi : i < s.cfg.maxLen) (ht : t = { s with pending := rest, inMem := s.inMem.write i v })
  | reset (rest : List HostAccess) (hp : s.pending = .reset :: rest)
      (ht : t = applyReset { s with pending := rest })

/-- A read of the OUT space leaves the block's state. -/
theorem outReadReply_sameBlock (s : State) (j : Nat) : SameBlock s (outReadReply s j) := by
  obtain ⟨n, b, h⟩ := outReadReply_eq s j
  rw [h]
  exact ⟨rfl, rfl, rfl, rfl, rfl, rfl, rfl⟩

/-- Every step has one of the five effects. -/
theorem stepEffect_of_step {s t : State} (h : step s = .next t) : StepEffect s t := by
  obtain ⟨-, rfl⟩ | ⟨a, rest, hp, ha⟩ := step_next_cases h
  · exact .unchanged ⟨rfl, rfl, rfl, rfl, rfl, rfl, rfl⟩
  obtain ⟨-, v, rfl⟩ | ⟨i, -, -, rfl⟩ | ⟨j, -, -, rfl⟩ | ⟨w, rfl, hw⟩ | ⟨v, rfl, hv, rfl⟩ |
    ⟨_, _, _, -, -, -, rfl⟩ | ⟨i, v, rfl, hi, rfl⟩ | ⟨_, _, -, -, rfl⟩ | ⟨rfl, rfl⟩ :=
    hostAccess_next_cases ha
  · exact .unchanged ⟨rfl, rfl, rfl, rfl, rfl, rfl, rfl⟩
  · exact .unchanged ⟨rfl, rfl, rfl, rfl, rfl, rfl, rfl⟩
  · obtain ⟨hc, hs, hl, ho, hi, hm, he⟩ := outReadReply_sameBlock { s with pending := rest } j
    exact .unchanged ⟨hc, hs, hl, ho, hi, hm, he⟩
  · obtain ⟨r, hfin, hr⟩ := writeCmd_finish_length_le w { s with pending := rest }
    rw [hfin] at hw
    cases hw
    exact .command w rest r hp hr rfl
  · exact .inLen v rest hp hv rfl
  · exact .unchanged ⟨rfl, rfl, rfl, rfl, rfl, rfl, rfl⟩
  · exact .inByte i v rest hp hi rfl
  · exact .unchanged ⟨rfl, rfl, rfl, rfl, rfl, rfl, rfl⟩
  · exact .reset rest hp rfl

/-- The next access of the host is a write to `CMD`: the step is what that write does (R20). -/
theorem step_of_cmdWrite {s : State} {w : Word} {rest : List HostAccess}
    (h : s.pending = .csrWrite .word 0x00 w :: rest) : step s = writeCmd w { s with pending := rest } :=
  step_of_pending h

/-- A read of `IN_MEM` after the host's write of one byte. -/
theorem memRead_inMem_write (s : State) (rest : List HostAccess) (i k : Nat) (v : Byte) :
    memRead { s with pending := rest, inMem := s.inMem.write i v } k =
      if k = i then v else memRead s k := by
  simp only [memRead, Memory.read?_write]
  split
  · rfl
  · rfl

end Sys2Proof.Machine
end

section
/-! PROOFS. The invariant `Inv` is kept by everything a step can do to the block. -/

namespace Sys2Proof.Machine

variable {s t : State}

/-- `Inv` speaks of the block's own state only. -/
theorem Inv.of_sameBlock (h : Inv s) (hb : SameBlock s t) : Inv t := by
  obtain ⟨hcfg, hstatus, hinLen, houtLen, hinMem, houtMem, -⟩ := hb
  have hcode : t.code = s.code := congrArg (BitVec.extractLsb' 0 3) hstatus
  constructor
  case cfgOk => exact hcfg ▸ h.cfgOk
  case rsvdZero => exact hstatus ▸ h.rsvdZero
  case codeLegal => exact hcode ▸ h.codeLegal
  case inLenOk => rw [hinLen, hcfg]; exact h.inLenOk
  case inMemWf => exact hinMem ▸ h.inMemWf
  case inMemRange => rw [hinMem, hcfg]; exact h.inMemRange
  case outLenOk => rw [houtLen, hcfg]; exact h.outLenOk
  case outCells => rw [houtMem, houtLen]; exact h.outCells
  case noOutput => rw [hcode, houtLen]; exact h.noOutput

/-- Serving an access takes it off the queue, which is no part of the block. -/
theorem Inv.dequeue (h : Inv s) (rest : List HostAccess) : Inv { s with pending := rest } :=
  h.of_sameBlock ⟨rfl, rfl, rfl, rfl, rfl, rfl, rfl⟩

/-- `raise` keeps the invariant. -/
theorem Inv.raise (h : Inv s) (k : ErrKind) : Inv (raise k s) where
  cfgOk := h.cfgOk
  rsvdZero := (setCode_rsvd _ _).trans h.rsvdZero
  codeLegal := raise_code s k ▸ k.code_ne_seven
  inLenOk := h.inLenOk
  inMemWf := h.inMemWf
  inMemRange := h.inMemRange
  outLenOk := Nat.zero_le _
  outCells := rfl
  noOutput := fun _ => rfl

/-- `complete` of an output that fits the output buffer keeps the invariant. -/
theorem Inv.complete (h : Inv s) {out : List Byte} (hout : out.length ≤ s.cfg.maxOut) :
    Inv (complete out s) := by
  obtain ⟨-, hmaxOut, -⟩ := h.cfgOk
  have hlen : (Machine.complete out s).outLen.toNat = out.length := by
    rw [complete_outLen, BitVec.toNat_ofNat]
    exact Nat.mod_eq_of_lt (hout.trans_lt hmaxOut)
  constructor
  case cfgOk => exact h.cfgOk
  case rsvdZero => exact (setCode_rsvd _ _).trans h.rsvdZero
  case codeLegal => rw [complete_code]; decide
  case inLenOk => exact h.inLenOk
  case inMemWf => exact h.inMemWf
  case inMemRange => exact h.inMemRange
  case outLenOk => rw [hlen]; exact hout
  case outCells =>
    rw [hlen, complete_outMem, Memory.keys_writeFrom out (by simp), List.range_eq_range']
    rfl
  case noOutput => exact fun hc => absurd (complete_code s out) hc

/-- Every end of a command whose output fits keeps the invariant. -/
theorem Inv.finish (h : Inv s) {r : Except ErrKind (List Byte)}
    (hr : ∀ out, r = .ok out → out.length ≤ s.cfg.maxOut) : Inv (finish r s) := by
  cases r with
  | ok out => exact h.complete (hr out rfl)
  | error k => exact h.raise k

/-- A legal `IN_LEN` keeps the invariant (R26). -/
theorem Inv.set_inLen (h : Inv s) {v : Word} (hv : v.toNat ≤ s.cfg.maxLen) : Inv { s with inLen := v } :=
  { h with inLenOk := hv }

/-- A byte written inside the input buffer keeps the invariant (R28). -/
theorem Inv.write_inMem (h : Inv s) {i : Nat} (hi : i < s.cfg.maxLen) (v : Byte) :
    Inv { s with inMem := s.inMem.write i v } where
  __ := h
  inMemWf := Memory.wf_write h.inMemWf i v
  inMemRange := by
    intro c hc
    obtain hci | hc := (Memory.mem_keys_write s.inMem i v c.1).mp (List.mem_map_of_mem hc)
    · exact hci ▸ hi
    · obtain ⟨d, hd, hdc⟩ := List.mem_map.mp hc
      exact hdc ▸ h.inMemRange d hd

/-- The reset values meet the invariant, whatever the legal parameters are (R200). -/
theorem inv_applyReset (h : s.cfg.wellFormed) : Inv (applyReset s) where
  cfgOk := h
  rsvdZero := show (0 : Word).extractLsb' 3 29 = 0 by decide
  codeLegal := show (0 : Word).extractLsb' 0 3 ≠ 7 by decide
  inLenOk := Nat.zero_le _
  inMemWf := List.Pairwise.nil
  inMemRange := nofun
  outLenOk := Nat.zero_le _
  outCells := rfl
  noOutput := fun _ => rfl

end Sys2Proof.Machine
end

section
/-! PROOFS. The invariant of the machine, along every step. -/

namespace Sys2Proof.Machine

/-- Settles O47: each of a step's effects keeps `Inv`; for a command, because its output is no longer than
the encoder's on the same input, which `P_MAX_OUT` bounds. -/
theorem everyStepKeepsTheInvariant : Obligations.EveryStepKeepsTheInvariant := by
  intro s t h hstep
  cases stepEffect_of_step hstep with
  | unchanged hb => exact h.of_sameBlock hb
  | command w rest r _ hr ht =>
    subst ht
    exact (h.dequeue rest).finish fun out ho => (hr out ho).trans (encodedLength_le_maxOut h.inLenOk)
  | inLen v rest _ hv ht => subst ht; exact (h.dequeue rest).set_inLen hv
  | inByte i v rest _ hi ht => subst ht; exact (h.dequeue rest).write_inMem hi v
  | reset rest _ ht => subst ht; exact inv_applyReset h.cfgOk

end Sys2Proof.Machine
end

section
/-! PROOFS. The frame of the commands and of the steps (10_state.md). -/

namespace Sys2Proof.Machine

/-- Settles O30: every command is a `finish`, whose two ends leave the frame. -/
theorem commandFrameAndNoPartialOutput : Obligations.CommandFrameAndNoPartialOutput := by
  intro i s
  refine ⟨_, exec_eq_finish i s, finish_frame _ s, fun hcode => ?_⟩
  obtain ⟨hlen, hmem⟩ := finish_no_output hcode
  exact ⟨hlen, fun j => by rw [hmem, Memory.read?_nil]⟩

/-- Settles O32: the two states have the same input bytes, so the command has the same result in both, and
its outcome depends on that result alone. -/
theorem outcomeDependsOnlyOnTheInput : Obligations.OutcomeDependsOnlyOnTheInput := by
  intro i s s' hcfg hlen hbytes
  have hexec := exec_eq_finish i s'
  rw [hcfg, inputBytes_congr hlen hbytes] at hexec
  obtain ⟨hcode, hout, hmem⟩ := finish_outcome_congr (commandResult i s.cfg (inputBytes s)) s s'
  exact ⟨_, _, exec_eq_finish i s, hexec, hcode, hout, fun j => by rw [hmem]⟩

/-- Settles O38: of a step's effects only a command's end and the reset values touch these registers. -/
theorem onlyCommandsAndResetWriteTheOutcome : Obligations.OnlyCommandsAndResetWriteTheOutcome := by
  intro s t hstep hne
  cases stepEffect_of_step hstep with
  | unchanged hb => simp [hb.status, hb.outLen, hb.outMem] at hne
  | command w rest _ hp => exact ⟨rest, .inl ⟨w, hp⟩⟩
  | inLen _ _ _ _ ht => simp [ht] at hne
  | inByte _ _ _ _ _ ht => simp [ht] at hne
  | reset rest hp => exact ⟨rest, .inr hp⟩

/-- Settles O39: apart from the reset values, only the host's writes touch `IN_LEN` and `IN_MEM`; a write to
`IN_MEM` changes no byte but its own. -/
theorem onlyTheHostWritesTheInput : Obligations.OnlyTheHostWritesTheInput := by
  intro s t hstep hreset
  cases stepEffect_of_step hstep with
  | unchanged hb =>
    exact ⟨fun hl => absurd hb.inLen hl, fun i hi => absurd (memRead_congr hb.inMem hb.epoch i) hi⟩
  | command w rest r _ _ ht =>
    have hf : CommandFrame { s with pending := rest } t := ht ▸ finish_frame r _
    exact ⟨fun hl => absurd hf.inLen hl, fun i hi => absurd (hf.inBytes i) hi⟩
  | inLen v rest hp _ ht =>
    subst ht
    exact ⟨fun _ => ⟨rest, hp⟩, fun i hi => absurd rfl hi⟩
  | inByte i v rest hp _ ht =>
    subst ht
    refine ⟨fun hl => absurd rfl hl, fun k hk => ?_⟩
    rw [memRead_inMem_write] at hk ⊢
    split at hk
    · next hki => subst hki; exact ⟨rest, by rw [if_pos rfl]; exact hp⟩
    · exact absurd rfl hk
  | reset rest hp => exact absurd hp (hreset rest)

/-- Settles O48: none of a step's effects writes the parameters. -/
theorem noStepChangesTheParameters : Obligations.NoStepChangesTheParameters := by
  intro s t hstep
  cases stepEffect_of_step hstep with
  | unchanged hb => exact hb.cfg
  | command _ rest r _ _ ht => subst ht; exact (finish_frame r { s with pending := rest }).cfg
  | inLen _ _ _ _ ht => subst ht; rfl
  | inByte _ _ _ _ _ ht => subst ht; rfl
  | reset _ _ ht => subst ht; rfl

end Sys2Proof.Machine
end

section
/-! PROOFS. The next command (10_state.md R20, R24). -/

namespace Sys2Proof.Machine

/-- The decoder reads a command from a table row's bits exactly when it reads it from the row's word. -/
theorem decodeTableWord_eq_some_iff {nbits w : Nat} {i : Instr} :
    decodeTableWord nbits w = some i ↔ decode (tableWord nbits w) = .ok i := by
  unfold decodeTableWord
  cases decode (tableWord nbits w) with
  | ok j => simp
  | error e => simp

/-- Settles O5: the step is the write to `CMD`, which is the command its word decodes to. -/
theorem stepRunsTheDecodedCommand : Obligations.StepRunsTheDecodedCommand := by
  intro s w i rest hp hdec
  rw [step_of_cmdWrite hp, writeCmd_of_decode hdec]

/-- Settles O6: `withFetchWord` puts a write to `CMD` first, and serving it gives the queue back. -/
theorem fetchWordIsTheNextCommand : Obligations.FetchWordIsTheNextCommand := by
  intro s nbits w i hdec
  have hp : (s.withFetchWord nbits w).pending = .csrWrite .word 0x00 (tableWord nbits w) :: s.pending := rfl
  exact stepRunsTheDecodedCommand _ _ i _ hp (decodeTableWord_eq_some_iff.mp hdec)

end Sys2Proof.Machine
end

section
/-! PROOFS. Where the encoder puts each group: the windows of its input, and the six-bit slices of a group. -/

namespace Sys2Proof.Machine

-- ## The windows of the encoder

/-- R123: the Quartets past window `k` encode the input past window `k`. -/
theorem encodeSeq_drop (k : Nat) (inp : List Byte) :
    (encodeSeq inp).drop (4 * k) = encodeSeq (inp.drop (3 * k)) := by
  induction k generalizing inp with
  | zero => rfl
  | succ k ih =>
    by_cases hlen : 3 ≤ inp.length
    · match inp, hlen with
      | a :: b :: c :: rest, _ =>
        simpa [encodeSeq, encodeGroup3, Nat.mul_add] using ih rest
    · rw [List.drop_eq_nil_of_le (by rw [encodeSeq_length]; omega),
        List.drop_eq_nil_of_le (by omega), encodeSeq]

/-- R120, R123: a full window `k` gives Quartet `k` by `EncodeGroup3`. -/
theorem encodeSeq_drop_of_fullWindow {inp : List Byte} {k : Nat} (h : 3 * k + 2 < inp.length) :
    (encodeSeq inp).drop (4 * k) =
      encodeGroup3 inp[3 * k] inp[3 * k + 1] inp[3 * k + 2] ++ encodeSeq (inp.drop (3 * k + 3)) := by
  rw [encodeSeq_drop, List.drop_eq_getElem_cons (by omega), List.drop_eq_getElem_cons (by omega),
    List.drop_eq_getElem_cons h, encodeSeq]

-- ## The indices as slices of the 24-bit group

section
variable (a b c : Byte)

/-- The bits of a group `{a, b, c}` (R120): eight of each byte, the last byte lowest. -/
theorem group_bit (i : Nat) : (a ++ b ++ c : BitVec 24).getLsbD i =
    if i < 8 then c.getLsbD i else if i < 16 then b.getLsbD (i - 8) else a.getLsbD (i - 16) := by
  refine (BitVec.getLsbD_append (x := a ++ b) (y := c) (i := i)).trans ?_
  split
  · rfl
  · refine (BitVec.getLsbD_append (x := a) (y := b) (i := i - 8)).trans ?_
    simp only [show i - 8 < 8 ↔ i < 16 by omega, show i - 8 - 8 = i - 16 by omega]

/-- Symbol 0 has the bits 23:18 of the group. -/
theorem encIdx0_eq_slice : encIdx0 a = (a ++ b ++ c : BitVec 24).extractLsb' 18 6 := by
  ext i hi
  rw [BitVec.getElem_extractLsb', group_bit, if_neg (by omega), if_neg (by omega),
    show 18 + i - 16 = 2 + i by omega]
  simp [encIdx0]

/-- Symbol 1 has the bits 17:12 of the group. -/
theorem encIdx1_eq_slice : encIdx1 a b = (a ++ b ++ c : BitVec 24).extractLsb' 12 6 := by
  ext i hi
  rw [BitVec.getElem_extractLsb', group_bit, if_neg (by omega)]
  interval_cases i <;> simp [encIdx1]

/-- Symbol 2 has the bits 11:6 of the group. -/
theorem encIdx2_eq_slice : encIdx2 b c = (a ++ b ++ c : BitVec 24).extractLsb' 6 6 := by
  ext i hi
  rw [BitVec.getElem_extractLsb', group_bit, if_pos (by omega : 6 + i < 16)]
  interval_cases i <;> simp [encIdx2]

/-- Symbol 3 has the bits 5:0 of the group. -/
theorem encIdx3_eq_slice : encIdx3 c = (a ++ b ++ c : BitVec 24).extractLsb' 0 6 := by
  ext i hi
  rw [BitVec.getElem_extractLsb', group_bit, if_pos (by omega)]
  interval_cases i <;> simp [encIdx3]

end

/-- R120: the symbols of a full group are those of its four slices of six bits, high to low. -/
theorem encodeGroup3_eq_slices (a b c : Byte) :
    encodeGroup3 a b c =
      [alpha ((a ++ b ++ c : BitVec 24).extractLsb' 18 6), alpha ((a ++ b ++ c : BitVec 24).extractLsb' 12 6),
        alpha ((a ++ b ++ c : BitVec 24).extractLsb' 6 6), alpha ((a ++ b ++ c : BitVec 24).extractLsb' 0 6)] := by
  rw [encodeGroup3, encIdx0_eq_slice a b c, encIdx1_eq_slice a b c, encIdx2_eq_slice a b c,
    encIdx3_eq_slice a b c]

end Sys2Proof.Machine
end

section
/-! PROOFS. What the commands leave in the buffers (20_memory.md R55, R59). -/

namespace Sys2Proof.Machine

-- ## `ENCODE_BYTES` in the buffers

/-- R125: on an input that is not empty `ENCODE_BYTES` completes with its encoding. -/
theorem exec_encodeBytes_of_inLen_ne_zero {s : State} (h : s.inLen.toNat ≠ 0) :
    exec .encodeBytes s = .next (complete (encodeSeq (inputBytes s)) s) := by
  rw [exec_eq_finish, commandResult, base64Encoder, if_neg (by rwa [inputBytes_length]), finish]

/-- Settles O17: Quartet `k` of the output is the group of window `k`, and `complete` puts it at `4 * k`. -/
theorem encodeBytesStreamOrder : Obligations.EncodeBytesStreamOrder := by
  intro s k hk
  refine ⟨_, exec_encodeBytes_of_inLen_ne_zero (by omega), ?_⟩
  have hwin : (encodeSeq (inputBytes s)).drop (4 * k) =
      encodeGroup3 (memRead s (3 * k)) (memRead s (3 * k + 1)) (memRead s (3 * k + 2)) ++
        encodeSeq ((inputBytes s).drop (3 * k + 3)) := by
    rw [encodeSeq_drop_of_fullWindow (by rwa [inputBytes_length])]
    simp only [inputBytes_getElem]
  have hcell (j : Nat) : (complete (encodeSeq (inputBytes s)) s).outMem.read? (4 * k + j) =
      ((encodeSeq (inputBytes s)).drop (4 * k))[j]? := by
    rw [complete_outMem, Memory.read?_writeFrom_nil, List.getElem?_drop]
  rw [hwin, encodeGroup3_eq_slices] at hcell
  exact ⟨hcell 0, hcell 1, hcell 2, hcell 3⟩

-- ## The same command again

/-- A second end with the same result overwrites the first with itself. -/
@[simp] theorem finish_finish (r : Except ErrKind (List Byte)) (s : State) :
    finish r (finish r s) = finish r s := by
  cases r with
  | ok out => simp only [finish, complete, setCode_setCode]
  | error k => simp only [finish, raise, setCode_setCode]

/-- Settles O31: the first run leaves the input and the parameters, so the second has the same result, which
it writes over itself. -/
theorem repeatingACommandChangesNothing : Obligations.RepeatingACommandChangesNothing := by
  intro i s
  have hf := finish_frame (commandResult i s.cfg (inputBytes s)) s
  refine ⟨_, exec_eq_finish i s, ?_⟩
  rw [exec_eq_finish, hf.cfg, inputBytes_congr hf.inLen fun j _ => hf.inBytes j, finish_finish]

end Sys2Proof.Machine
end

section
/-! PROOFS. What an access of the host does to the block, to the queue and to the replies (20_memory.md). -/

namespace Sys2Proof.Machine

-- ## The CSR space (R51)

/-- A CSR access of another shape is no whole word at a multiple of 4. -/
theorem csrShapeOk_eq_false {w : Width} {off : Nat} (h : ¬ (w = .word ∧ off % 4 = 0)) :
    csrShapeOk w off = false :=
  Bool.eq_false_iff.mpr fun hs => h ((csrShapeOk_iff w off).mp hs)

/-- A read of the CSR space in the right shape returns `csrValue`. -/
theorem hostAccess_csrRead_word (s : State) {off : Nat} (h : off % 4 = 0) :
    hostAccess (.csrRead .word off) s = .next (s.reply (.word (csrValue s off))) :=
  if_pos ((csrShapeOk_iff .word off).mpr ⟨rfl, h⟩)

/-- A write to the CSR space in the right shape is `writeCsr`. -/
theorem hostAccess_csrWrite_word (s : State) (v : Word) {off : Nat} (h : off % 4 = 0) :
    hostAccess (.csrWrite .word off v) s = writeCsr off v s :=
  if_pos ((csrShapeOk_iff .word off).mpr ⟨rfl, h⟩)

/-- A CSR access of any other shape is refused. -/
theorem hostAccess_csr_refused (s : State) (v : Word) {w : Width} {off : Nat}
    (h : ¬ (w = .word ∧ off % 4 = 0)) :
    hostAccess (.csrRead w off) s = .refused .csrAccessShape ∧
      hostAccess (.csrWrite w off v) s = .refused .csrAccessShape := by
  simp only [hostAccess, csrShapeOk_eq_false h, Bool.false_eq_true, if_false, and_self]

@[simp] theorem csrValue_cmd (s : State) : csrValue s 0x00 = 0 := rfl
@[simp] theorem csrValue_status (s : State) : csrValue s 0x04 = s.code.setWidth 32 := rfl
@[simp] theorem csrValue_inLen (s : State) : csrValue s 0x08 = s.inLen := rfl
@[simp] theorem csrValue_outLen (s : State) : csrValue s 0x0C = s.outLen := rfl

/-- A reserved offset reaches no register. -/
theorem csrAt_reserved {off : Nat} (h0 : off ≠ 0x00) (h4 : off ≠ 0x04) (h8 : off ≠ 0x08)
    (hc : off ≠ 0x0C) : csrAt off = none := by
  rw [csrAt, if_neg h0, if_neg h4, if_neg h8, if_neg hc]

/-- A reserved offset reads 0. -/
theorem csrValue_reserved (s : State) {off : Nat} (h0 : off ≠ 0x00) (h4 : off ≠ 0x04) (h8 : off ≠ 0x08)
    (hc : off ≠ 0x0C) : csrValue s off = 0 := by
  simp only [csrValue, csrAt_reserved h0 h4 h8 hc]

/-- `CODE` read as a word: bits 31:3 are 0 and bits 2:0 the code (R25). -/
theorem code_setWidth_slices (c : BitVec 3) :
    (c.setWidth 32).extractLsb' 3 29 = 0 ∧ (c.setWidth 32).extractLsb' 0 3 = c := by
  revert c
  decide

/-- A write outside `CMD` and `IN_LEN` is ignored. -/
theorem writeCsr_ignored (v : Word) (s : State) {off : Nat} (h0 : off ≠ 0x00) (h8 : off ≠ 0x08) :
    writeCsr off v s = .next s := by
  obtain ⟨-, ho⟩ | ⟨hat, -⟩ | ⟨-, ho⟩ | ⟨hat, -⟩ | ⟨hat, -⟩ := csrAt_cases off
  · exact absurd ho h0
  · simp only [writeCsr, hat]
  · exact absurd ho h8
  · simp only [writeCsr, hat]
  · simp only [writeCsr, hat]

@[simp] theorem writeCsr_inLen (v : Word) (s : State) : writeCsr 0x08 v s = writeInLen v s := rfl

/-- Settles O33: the shape of the access decides whether it is served, and its offset what it reaches. -/
theorem csrSpaceAccesses : Obligations.CsrSpaceAccesses := by
  intro s width off v rest
  refine ⟨fun hp => ?_, fun hp => ?_⟩
  · rw [step_of_pending hp]
    refine ⟨fun hshape => (hostAccess_csr_refused _ v hshape).1, ?_⟩
    rintro rfl halign
    refine ⟨csrValue s off, hostAccess_csrRead_word { s with pending := rest } halign, ?_, ?_, ?_, ?_,
      csrValue_reserved s⟩
    · rintro rfl; exact csrValue_cmd s
    · rintro rfl; exact code_setWidth_slices s.code
    · rintro rfl; exact csrValue_inLen s
    · rintro rfl; exact csrValue_outLen s
  · rw [step_of_pending hp]
    refine ⟨fun hshape => (hostAccess_csr_refused _ v hshape).2, ?_, ?_, ?_⟩
    · rintro rfl halign h0 h8
      rw [hostAccess_csrWrite_word _ v halign, writeCsr_ignored v _ h0 h8]
    · rintro rfl rfl hv
      rw [hostAccess_csrWrite_word _ v rfl, writeCsr_inLen, writeInLen, if_pos hv]
    · rintro rfl rfl hv
      rw [hostAccess_csrWrite_word _ v rfl, writeCsr_inLen, writeInLen, if_neg (Nat.not_le.mpr hv)]

-- ## The IN space (R53)

/-- Settles O34: the index decides whether the access is served; a served write changes its own byte only. -/
theorem inSpaceAccesses : Obligations.InSpaceAccesses := by
  intro s i v rest
  refine ⟨fun hp => ?_, fun hp => ?_⟩
  · rw [step_of_pending hp]
    exact ⟨fun hi => if_pos hi, fun hi => if_neg (Nat.not_lt.mpr hi)⟩
  · rw [step_of_pending hp]
    refine ⟨fun hi => ⟨s.inMem.write i v, _, rfl, if_pos hi, ?_, fun k hk => ?_, rfl⟩,
      fun hi => if_neg (Nat.not_lt.mpr hi)⟩
    · rw [memRead_inMem_write, if_pos rfl]
    · rw [memRead_inMem_write, if_neg hk]

-- ## The OUT space (R54)

/-- What a read of the OUT space changes, and the byte it returns where the cell is specified. -/
theorem outReadReply_byte (s : State) (j : Nat) : ∃ n b,
    outReadReply s j = { s with draws := n, replies := s.replies ++ [.byte b] } ∧
      ∀ x, s.outMem.read? j = some x → b = x := by
  unfold outReadReply
  split
  · next y hy => exact ⟨_, y, rfl, fun x hx => Option.some.inj (hy.symm.trans hx)⟩
  · next hnone => exact ⟨_, _, rfl, fun x hx => absurd (hnone.symm.trans hx) nofun⟩

/-- Settles O35: the index decides whether the access is served; a served write changes nothing, and a served
read only the draw counter and the replies. -/
theorem outSpaceAccesses : Obligations.OutSpaceAccesses := by
  intro s j v rest
  refine ⟨fun hp => ?_, fun hp => ?_⟩
  · rw [step_of_pending hp]
    refine ⟨fun hj => ?_, fun hj => if_neg (Nat.not_lt.mpr hj)⟩
    obtain ⟨n, b, hread, hb⟩ := outReadReply_byte { s with pending := rest } j
    exact ⟨_, b, (if_pos hj).trans (congrArg _ hread), ⟨rfl, rfl, rfl, rfl, rfl, rfl, rfl⟩, rfl, rfl, hb⟩
  · rw [step_of_pending hp]
    exact ⟨fun hj => if_pos hj, fun hj => if_neg (Nat.not_lt.mpr hj)⟩

-- ## Reads and the order of the accesses (R59, R60)

/-- A read of any of the three spaces that is served adds one reply and changes at most the draw counter
beside it. -/
theorem hostAccess_read_next {a : HostAccess} {s t : State}
    (hread : (∃ w off, a = .csrRead w off) ∨ (∃ i, a = .inRead i) ∨ ∃ j, a = .outRead j)
    (h : hostAccess a s = .next t) : ∃ n r, t = { s with draws := n, replies := s.replies ++ [r] } := by
  obtain ⟨-, v, rfl⟩ | ⟨i, -, -, rfl⟩ | ⟨j, -, -, rfl⟩ | ⟨_, rfl, -⟩ | ⟨_, rfl, -⟩ | ⟨_, _, _, rfl, -⟩ |
    ⟨_, _, rfl, -⟩ | ⟨_, _, rfl, -⟩ | ⟨rfl, -⟩ := hostAccess_next_cases h
  · exact ⟨_, _, rfl⟩
  · exact ⟨_, _, rfl⟩
  · obtain ⟨n, b, ht⟩ := outReadReply_eq s j
    exact ⟨n, _, ht⟩
  all_goals simp at hread

/-- Settles O37: a read changes the queue, the draw counter and the replies, none of which is the block's. -/
theorem readsLeaveTheBlockUnchanged : Obligations.ReadsLeaveTheBlockUnchanged := by
  intro s t a rest hp hread hstep
  rw [step_of_pending hp] at hstep
  obtain ⟨n, r, rfl⟩ := hostAccess_read_next hread hstep
  exact ⟨⟨rfl, rfl, rfl, rfl, rfl, rfl, rfl⟩, rfl, r, rfl⟩

/-- No access touches those that wait behind it, and none gives more than one reply. -/
theorem hostAccess_pending_replies {a : HostAccess} {s t : State} (h : hostAccess a s = .next t) :
    t.pending = s.pending ∧ (t.replies = s.replies ∨ ∃ r, t.replies = s.replies ++ [r]) := by
  obtain ⟨-, v, rfl⟩ | ⟨i, -, -, rfl⟩ | ⟨j, -, -, rfl⟩ | ⟨w, -, hw⟩ | ⟨_, -, -, rfl⟩ |
    ⟨_, _, _, -, -, -, rfl⟩ | ⟨_, _, -, -, rfl⟩ | ⟨_, _, -, -, rfl⟩ | ⟨-, rfl⟩ := hostAccess_next_cases h
  · exact ⟨rfl, .inr ⟨_, rfl⟩⟩
  · exact ⟨rfl, .inr ⟨_, rfl⟩⟩
  · obtain ⟨n, b, ht⟩ := outReadReply_eq s j
    rw [ht]
    exact ⟨rfl, .inr ⟨_, rfl⟩⟩
  · obtain ⟨r, hfin⟩ := writeCmd_finish w s
    cases hfin.symm.trans hw
    exact ⟨(finish_frame r s).pending, .inl (finish_frame r s).replies⟩
  all_goals exact ⟨rfl, .inl rfl⟩

/-- Settles O40: the step serves the first access alone, from the state with the others pending. -/
theorem accessesAreServedInOrder : Obligations.AccessesAreServedInOrder := by
  intro s t a rest hp hstep
  exact hostAccess_pending_replies ((step_of_pending hp).symm.trans hstep)

end Sys2Proof.Machine
end

section
/-! PROOFS. The command words: the decoder against the encoder and the two fields, and what a write of any
word to `CMD` does (30_encoding.md R70 to R72). -/

namespace Sys2Proof.Machine

/-- Everything the decoder can answer: the command of one of the four command words, or a rejection of any
other word. -/
theorem decode_cases (w : Word) :
    (w = 1 ∧ decode w = .ok .encodeBytes) ∨ (w = 2 ∧ decode w = .ok .decodeBytes) ∨
    (w = 3 ∧ decode w = .ok .encodeText) ∨ (w = 4 ∧ decode w = .ok .decodeText) ∨
    (w ≠ 1 ∧ w ≠ 2 ∧ w ≠ 3 ∧ w ≠ 4 ∧ ∃ e, decode w = .error e) := by
  by_cases h1 : w = 1
  · subst h1; exact .inl ⟨rfl, rfl⟩
  by_cases h2 : w = 2
  · subst h2; exact .inr (.inl ⟨rfl, rfl⟩)
  by_cases h3 : w = 3
  · subst h3; exact .inr (.inr (.inl ⟨rfl, rfl⟩))
  by_cases h4 : w = 4
  · subst h4; exact .inr (.inr (.inr (.inl ⟨rfl, rfl⟩)))
  refine .inr (.inr (.inr (.inr ⟨h1, h2, h3, h4, ?_⟩)))
  rw [decode, if_neg h1, if_neg h2, if_neg h3, if_neg h4]
  split
  · exact ⟨_, rfl⟩
  · exact ⟨_, rfl⟩

@[simp] theorem decode_encode (i : Instr) : decode (encode i) = .ok i := by
  cases i <;> rfl

/-- R72: a word is a command only if it is that command's word in all 32 bits. -/
theorem decode_eq_ok_iff {w : Word} {i : Instr} : decode w = .ok i ↔ w = encode i := by
  constructor
  · intro h
    obtain ⟨rfl, hd⟩ | ⟨rfl, hd⟩ | ⟨rfl, hd⟩ | ⟨rfl, hd⟩ | ⟨-, -, -, -, _, hd⟩ := decode_cases w
    all_goals cases hd.symm.trans h
    all_goals rfl
  · rintro rfl
    exact decode_encode i

/-- The fields of the command words (R70, R71). -/
theorem encode_fields (i : Instr) : Laws.CommandWord.Statement i := by
  cases i with
  | encodeBytes => exact Laws.CommandWord.encodeBytes
  | decodeBytes => exact Laws.CommandWord.decodeBytes
  | encodeText => exact Laws.CommandWord.encodeText
  | decodeText => exact Laws.CommandWord.decodeText

/-- A word is its fields `RSVD` and `OP` put together (R70). -/
theorem word_eq_rsvd_append_op (w : Word) : w = w.extractLsb' 3 29 ++ w.extractLsb' 0 3 := by
  have happ := BitVec.extractLsb'_append_extractLsb'_eq_extractLsb' (x := w) (len₂ := 29)
    (show 3 = 0 + 3 from rfl)
  exact BitVec.extractLsb'_eq_self.symm.trans happ.symm

/-- Settles O2: the decoder answers a command for that command's word only, and a word is its two fields. -/
theorem decodeReadsOpAndRsvd : Obligations.DecodeReadsOpAndRsvd := by
  intro w i
  rw [decode_eq_ok_iff]
  constructor
  · rintro rfl
    exact encode_fields i
  · rintro ⟨hrsvd, hop⟩
    rw [word_eq_rsvd_append_op w, hrsvd, hop]
    rfl

/-- Settles O3, by the decoder's exactness. -/
theorem decodeEncodeRoundTrip : Obligations.DecodeEncodeRoundTrip :=
  fun i => ⟨decode_encode i, fun _ => decode_eq_ok_iff.mp⟩

/-- Settles O1: each command word is that command's encoding, and the four reserved opcodes are evaluated. -/
theorem commandWordsOfTheOpcodeMap : Obligations.CommandWordsOfTheOpcodeMap := by
  refine ⟨decode_encode .encodeBytes, decode_encode .decodeBytes, decode_encode .encodeText,
    decode_encode .decodeText, ?_, rfl, rfl, rfl, rfl⟩
  rintro op (rfl | rfl | rfl | rfl)
  all_goals rfl

/-- Settles O4: a command's word runs it, and any other word is rejected by the decoder and raises
`BadCommand`. -/
theorem cmdWriteRunsOrIsBadCommand : Obligations.CmdWriteRunsOrIsBadCommand := by
  intro s w rest hp
  have hrun (i : Instr) (hw : w = encode i) : step s = exec i { s with pending := rest } :=
    stepRunsTheDecodedCommand s w i rest hp (decode_eq_ok_iff.mpr hw)
  refine ⟨hrun .encodeBytes, hrun .decodeBytes, hrun .encodeText, hrun .decodeText, ?_⟩
  intro h1 h2 h3 h4
  obtain ⟨h, -⟩ | ⟨h, -⟩ | ⟨h, -⟩ | ⟨h, -⟩ | ⟨-, -, -, -, e, hd⟩ := decode_cases w
  · exact absurd h h1
  · exact absurd h h2
  · exact absurd h h3
  · exact absurd h h4
  · refine ⟨raise .badCommand { s with pending := rest }, ?_, raise_raised .badCommand _⟩
    simp only [step_of_cmdWrite hp, writeCmd, hd]

end Sys2Proof.Machine
end

section
/-! PROOFS. The steps that serve the accesses that the host writes and reads with (30_encoding.md R76),
and the runs of them. -/

namespace Sys2Proof.Machine

variable {s t u : State} {rest : List HostAccess}

-- ## One access

/-- `rd` of a register returns its value. -/
theorem step_rd {c : Csr} (hp : s.pending = rd c :: rest) :
    step s = .next { s with pending := rest, replies := s.replies ++ [.word (csrValue s (csrOffset c))] } := by
  rw [step_of_pending hp]
  exact hostAccess_csrRead_word _ (by cases c <;> rfl)

/-- `wr IN_LEN` of a legal value sets it. -/
theorem step_wr_inLen {v : Word} (hp : s.pending = wr .inLen v :: rest) (hv : v.toNat ≤ s.cfg.maxLen) :
    step s = .next { s with pending := rest, inLen := v } :=
  (step_of_pending hp).trans (if_pos hv)

/-- `wrb IN` inside the buffer writes its byte. -/
theorem step_inWrite {i : Nat} {v : Byte} (hp : s.pending = .inWrite i v :: rest)
    (hi : i < s.cfg.maxLen) :
    step s = .next { s with pending := rest, inMem := s.inMem.write i v } :=
  (step_of_pending hp).trans (if_pos hi)

/-- `rdb OUT` of a specified byte returns it. -/
theorem step_outRead {j : Nat} {b : Byte} (hp : s.pending = .outRead j :: rest)
    (hj : j < s.cfg.maxOut) (hb : s.outMem.read? j = some b) :
    step s = .next { s with pending := rest, replies := s.replies ++ [.byte b] } := by
  rw [step_of_pending hp]
  refine (if_pos hj).trans ?_
  simp only [outReadReply, hb, State.reply]

-- ## Runs of several accesses

/-- The next `n` steps go from `s` to `t`, however many steps `k` the run has after them. -/
def RunsTo (n : Nat) (s t : State) : Prop :=
  ∀ k, Sys2Proof.core.run (n + k) s = Sys2Proof.core.run k t

theorem RunsTo.refl (s : State) : RunsTo 0 s s :=
  fun k => by rw [Nat.zero_add]

theorem RunsTo.trans {m n : Nat} (h : RunsTo m s t) (h' : RunsTo n t u) : RunsTo (m + n) s u :=
  fun k => by rw [Nat.add_assoc, h, h']

/-- A step, and then `n` more. -/
theorem RunsTo.cons {n : Nat} (hs : step s = .next t) (h : RunsTo n t u) : RunsTo (n + 1) s u :=
  fun k => by rw [Nat.add_right_comm, run_succ _ hs, h]

/-- A run of exactly `n` steps answers the state they go to. -/
theorem RunsTo.run_eq {n : Nat} (h : RunsTo n s t) : Sys2Proof.core.run n s = .next t := h 0

/-- The output from cell `j` on, without its first byte. -/
theorem output_tail {j : Nat} {v : Byte} {vs : List Byte} {m : Memory}
    (h : ∀ k, m.read? (j + k) = (v :: vs)[k]?) (k : Nat) : m.read? (j + 1 + k) = vs[k]? := by
  rw [Nat.add_assoc, Nat.add_comm 1, h, List.getElem?_cons_succ]

/-- The writes of `load`, from index `i` on. -/
theorem runsTo_wrbFrom {i : Nat} {bs : List Byte} (hp : s.pending = wrbFrom i bs ++ rest)
    (hlen : i + bs.length ≤ s.cfg.maxLen) :
    RunsTo bs.length s { s with pending := rest, inMem := Memory.writeFrom s.inMem i bs } := by
  induction bs generalizing s i with
  | nil => cases hp; exact .refl s
  | cons b bs ih =>
    rw [List.length_cons] at hlen
    exact .cons (step_inWrite hp (by omega)) (ih rfl (by simp only; omega))

/-- The byte reads of `result`, from index `j` on. -/
theorem runsTo_outReads {j : Nat} {vs : List Byte}
    (hp : s.pending = (List.range' j vs.length).map .outRead ++ rest)
    (hout : ∀ k, s.outMem.read? (j + k) = vs[k]?) (hlen : j + vs.length ≤ s.cfg.maxOut) :
    RunsTo vs.length s { s with pending := rest, replies := s.replies ++ vs.map .byte } := by
  induction vs generalizing s j with
  | nil => cases hp; rw [List.map_nil, List.append_nil]; exact .refl s
  | cons v vs ih =>
    rw [List.length_cons] at hlen
    rw [List.map_cons, List.append_cons]
    exact .cons (step_outRead hp (by omega) (hout 0)) (ih rfl (output_tail hout) (by simp only; omega))

/-- The input buffer is no longer than the output buffer (R5). -/
theorem maxLen_le_maxOut (c : Config) : c.maxLen ≤ c.maxOut := by
  have hmax := encodedLength_le_maxOut (c := c) le_rfl
  omega

/-- The pairs of a read and a write of `copyback`, from index `j` on: the output stays where it is, so
each read still returns its byte. -/
theorem runsTo_copyFrom {j : Nat} {vs : List Byte} (hp : s.pending = copyFrom j vs ++ rest)
    (hout : ∀ k, s.outMem.read? (j + k) = vs[k]?) (hlen : j + vs.length ≤ s.cfg.maxLen) :
    RunsTo (2 * vs.length) s { s with pending := rest, inMem := Memory.writeFrom s.inMem j vs,
                                      replies := s.replies ++ vs.map .byte } := by
  induction vs generalizing s j with
  | nil => cases hp; rw [List.map_nil, List.append_nil]; exact .refl s
  | cons v vs ih =>
    rw [List.length_cons] at hlen
    have hmax := maxLen_le_maxOut s.cfg
    rw [List.map_cons, List.append_cons]
    exact .cons (step_outRead hp (by omega) (hout 0)) <|
      .cons (step_inWrite rfl (by simp only; omega)) <|
      ih rfl (output_tail hout) (by simp only; omega)

end Sys2Proof.Machine
end

section
/-! PROOFS. The pseudo-operations `load`, `copyback` and `result` (30_encoding.md R77). -/

namespace Sys2Proof.Machine

-- ## The input that `load` and `copyback` leave

/-- The state with the bytes `bs` in front of the input buffer and their number in `IN_LEN`. -/
def State.withInput (s : State) (bs : List Byte) : State :=
  { s with inMem := Memory.writeFrom s.inMem 0 bs, inLen := BitVec.ofNat 32 bs.length }

/-- A read of `IN_MEM` in a state with given input: an input byte below its length, the earlier byte above. -/
theorem memRead_withInput (s : State) (bs : List Byte) (i : Nat) :
    memRead (s.withInput bs) i = (bs[i]?).getD (memRead s i) := by
  simp only [memRead, State.withInput, Memory.read?_writeFrom, Nat.zero_le, Nat.zero_add, true_and,
    Nat.sub_zero]
  split
  · next hi => rw [List.getElem?_eq_getElem hi]; rfl
  · next hi => rw [List.getElem?_eq_none (Nat.not_lt.mp hi)]; rfl

/-- The bytes past the given input are the earlier ones. -/
theorem memRead_withInput_of_le (s : State) {bs : List Byte} {i : Nat} (hi : bs.length ≤ i) :
    memRead (s.withInput bs) i = memRead s i := by
  rw [memRead_withInput, List.getElem?_eq_none hi, Option.getD_none]

/-- A legal input buffer has fewer bytes than `IN_LEN` can count (assumption 2). -/
theorem toNat_ofNat_word {c : Config} (hc : c.wellFormed) {n : Nat} (hn : n ≤ c.maxLen) :
    (BitVec.ofNat 32 n).toNat = n := by
  obtain ⟨-, hmaxOut, -⟩ := hc
  rw [BitVec.toNat_ofNat]
  exact Nat.mod_eq_of_lt (hn.trans_lt ((maxLen_le_maxOut c).trans_lt hmaxOut))

/-- The input of a command in a state with given input is that input, where it fits the buffer. -/
theorem inputBytes_withInput {s : State} {bs : List Byte} (hc : s.cfg.wellFormed)
    (hlen : bs.length ≤ s.cfg.maxLen) : inputBytes (s.withInput bs) = bs := by
  have hl : (inputBytes (s.withInput bs)).length = bs.length :=
    (inputBytes_length _).trans (toNat_ofNat_word hc hlen)
  refine List.ext_getElem hl fun i _ hi => ?_
  rw [inputBytes_getElem, memRead_withInput, List.getElem?_eq_getElem hi, Option.getD_some]

/-- The last access of `load` and of `copyback`: `IN_LEN` gets the number of the bytes. -/
theorem runsTo_wr_inLen {s : State} {n : Nat} {rest : List HostAccess}
    (hp : s.pending = wr .inLen (BitVec.ofNat 32 n) :: rest) (hc : s.cfg.wellFormed)
    (hn : n ≤ s.cfg.maxLen) : RunsTo 1 s { s with pending := rest, inLen := BitVec.ofNat 32 n } :=
  .cons (step_wr_inLen hp ((toNat_ofNat_word hc hn).trans_le hn)) (.refl _)

-- ## `load`

/-- The run of `load` changes the input and the queue, and nothing else. -/
theorem runsTo_load {s : State} {bs : List Byte} {rest : List HostAccess} (hc : s.cfg.wellFormed)
    (hlen : bs.length ≤ s.cfg.maxLen) (hp : s.pending = load bs ++ rest) :
    RunsTo (bs.length + 1) s (State.withInput { s with pending := rest } bs) := by
  rw [load, List.append_assoc] at hp
  exact (runsTo_wrbFrom hp (by omega)).trans (runsTo_wr_inLen rfl hc hlen)

/-- Settles O42, by the run of `load`. -/
theorem loadMakesItsBytesTheInput : Obligations.LoadMakesItsBytesTheInput := by
  intro s bs rest hc hlen hp
  exact ⟨_, (runsTo_load hc hlen hp).run_eq, inputBytes_withInput hc hlen,
    fun i hi => memRead_withInput_of_le _ hi, rfl, rfl, rfl, rfl, rfl, rfl⟩

/-- Every character of ASCII has its number as a byte. -/
theorem exists_bytes_of_ascii {cs : List Char} (h : ∀ c ∈ cs, c.toNat < 0x80) :
    ∃ bs : List Byte, bs.map BitVec.toNat = cs.map Char.toNat := by
  refine ⟨cs.map fun c => BitVec.ofNat 8 c.toNat, ?_⟩
  rw [List.map_map]
  refine List.map_congr_left fun c hc => ?_
  have hascii := h c hc
  rw [Function.comp_apply, BitVec.toNat_ofNat]
  exact Nat.mod_eq_of_lt (by omega)

/-- Settles O49: the text's expansion is `load` of its characters' codes, one for each. -/
theorem loadCharsMakesTheirCodesTheInput : Obligations.LoadCharsMakesTheirCodesTheInput := by
  intro s chars rest
  simp only [loadChars_eq_some_iff]
  refine ⟨⟨fun ⟨_, hascii, _⟩ => hascii, fun hascii => ?_⟩, ?_⟩
  · obtain ⟨bs, hbs⟩ := exists_bytes_of_ascii hascii
    exact ⟨load bs, hascii, bs, hbs, rfl⟩
  · rintro _ ⟨-, bs, hbs, rfl⟩ hc hlen hp
    have hl : bs.length = chars.toList.length := by simpa using congrArg List.length hbs
    rw [← hl] at hlen ⊢
    obtain ⟨t, hrun, hinp, hframe⟩ := loadMakesItsBytesTheInput s bs rest hc hlen hp
    exact ⟨t, hrun, hinp ▸ hbs, hframe⟩

/-- Settles O50: the five texts are evaluated. -/
theorem asciiCodesOfTheNamedCharacters : Obligations.AsciiCodesOfTheNamedCharacters := by
  refine ⟨?_, ?_, ?_, ?_, ?_⟩
  all_goals decide

-- ## `copyback`

/-- The run of `copyback` makes the output the input and adds its replies. -/
theorem runsTo_copyback {s : State} {vs : List Byte} {rest : List HostAccess} (hc : s.cfg.wellFormed)
    (hout : ∀ j, s.outMem.read? j = vs[j]?) (hlen : vs.length ≤ s.cfg.maxLen)
    (hp : s.pending = copyback vs ++ rest) :
    RunsTo (2 * vs.length + 2) s (State.withInput
      { s with pending := rest, replies := s.replies ++ .word s.outLen :: vs.map .byte } vs) := by
  rw [copyback, List.append_assoc] at hp
  rw [List.append_cons]
  refine .cons (step_rd hp) (.trans (runsTo_copyFrom rfl (fun k => ?_) ?_) (runsTo_wr_inLen rfl hc hlen))
  · rw [Nat.zero_add]; exact hout k
  · rw [Nat.zero_add]; exact hlen

/-- Settles O43, by the run of `copyback`. -/
theorem copybackFeedsTheOutputBack : Obligations.CopybackFeedsTheOutputBack := by
  intro s vs rest hinv _ hout hlen hp
  exact ⟨_, (runsTo_copyback hinv.cfgOk hout hlen hp).run_eq, inputBytes_withInput hinv.cfgOk hlen,
    fun i hi => memRead_withInput_of_le _ hi, rfl, rfl, rfl, rfl, rfl⟩

-- ## `result`

/-- The run of `result` adds its replies and changes nothing else but the queue. -/
theorem runsTo_result {s : State} {vs : List Byte} {rest : List HostAccess}
    (hout : ∀ j, s.outMem.read? j = vs[j]?) (hlen : vs.length ≤ s.cfg.maxOut)
    (hp : s.pending = result vs.length ++ rest) :
    RunsTo (vs.length + 2) s { s with
      pending := rest,
      replies := s.replies ++ .word (s.code.setWidth 32) :: .word s.outLen :: vs.map .byte } := by
  rw [result, List.append_assoc, List.range_eq_range'] at hp
  rw [List.append_cons, List.append_cons]
  refine .cons (step_rd hp) (.cons (step_rd rfl) (runsTo_outReads rfl (fun k => ?_) ?_))
  · rw [Nat.zero_add]; exact hout k
  · rw [Nat.zero_add]; exact hlen

/-- Settles O44, by the run of `result`. -/
theorem resultReadsTheOutput : Obligations.ResultReadsTheOutput := by
  intro s vs rest hout hlen hp
  exact ⟨_, (runsTo_result hout hlen hp).run_eq, ⟨rfl, rfl, rfl, rfl, rfl, rfl, rfl⟩, rfl, rfl⟩

end Sys2Proof.Machine
end

section
/-! PROOFS. The two tables (40_tables.md): the alphabet in closed form, the symbol-to-index table as its inverse,
and `Classify` read off that table. -/

namespace Sys2Proof.Machine

-- ## The fields of a table entry

/-- An entry is `{1, i}` exactly when its field `V` is 1 and its index field is `i`. -/
theorem lutEntry_eq_append_iff {e : LutEntry} {i : Idx} :
    e = (1 : BitVec 1) ++ i ↔ e.extractLsb' 6 1 = 1 ∧ e.extractLsb' 0 6 = i := by
  constructor
  · rintro rfl
    exact ⟨BitVec.extractLsb'_append_eq_left, BitVec.extractLsb'_append_eq_right⟩
  · rintro ⟨hv, rfl⟩
    have happ := BitVec.extractLsb'_append_extractLsb'_eq_extractLsb' (x := e) (len₂ := 1)
      (show 6 = 0 + 6 from rfl)
    rw [hv] at happ
    exact BitVec.extractLsb'_eq_self.symm.trans happ.symm

/-- The entry `{1, i}` as a number. -/
theorem toNat_one_append (i : Idx) : ((1 : BitVec 1) ++ i).toNat = 64 + i.toNat := by
  rw [BitVec.toNat_append]
  exact (Nat.two_pow_add_eq_or_of_lt i.isLt 1).symm

/-- An entry with `V = 1` has one index only. -/
theorem one_append_inj {i j : Idx} (h : (1 : BitVec 1) ++ i = (1 : BitVec 1) ++ j) : i = j :=
  (BitVec.append_right_inj 1).mp h

-- ## The alphabet and its inverse table

/-- Settles O7: the 64 entries are evaluated. -/
theorem alphabetLutContents : Obligations.AlphabetLutContents := by
  unfold Obligations.AlphabetLutContents
  decide

/-- R106: the entry of a symbol holds its index. -/
@[simp] theorem s2i_alpha : ∀ i : Idx, s2i (alpha i) = (1 : BitVec 1) ++ i := by decide

/-- Settles O8: the table entry of a symbol gives its index back. -/
theorem alphabetIsInjective : Obligations.AlphabetIsInjective := by
  intro i j h
  have hentry := congrArg s2i h
  rw [s2i_alpha, s2i_alpha] at hentry
  exact one_append_inj hentry

/-- R104: a byte that is no symbol has the entry 0. -/
theorem s2i_eq_zero {b : Byte} (h : ∀ i : Idx, alpha i ≠ b) : s2i b = 0 := by
  have hnone : alphabetLut.toList.findIdx? (fun s => s == b) = none := by
    rw [List.findIdx?_eq_none_iff]
    intro x hx
    obtain ⟨n, hn, rfl⟩ := Vector.mem_iff_getElem.mp (Vector.mem_toList_iff.mp hx)
    exact beq_eq_false_iff_ne.mpr (h ⟨n, hn⟩)
  rw [s2i, symbolToIndexLut, hnone]

/-- The inverse law as an equivalence (R104, R106). -/
theorem s2i_eq_append_iff {b : Byte} {i : Idx} : s2i b = (1 : BitVec 1) ++ i ↔ alpha i = b := by
  constructor
  · intro h
    by_cases hsym : ∃ j, alpha j = b
    · obtain ⟨j, rfl⟩ := hsym
      rw [s2i_alpha] at h
      rw [one_append_inj h]
    · have hnum := congrArg BitVec.toNat h
      rw [s2i_eq_zero (not_exists.mp hsym), toNat_one_append] at hnum
      have hzero : (0 : LutEntry).toNat = 0 := rfl
      omega
  · rintro rfl
    exact s2i_alpha i

/-- Field `V` of an entry says that the byte is a symbol. -/
theorem s2i_valid_iff {b : Byte} : (s2i b).extractLsb' 6 1 = 1 ↔ ∃ i, alpha i = b := by
  simp only [← s2i_eq_append_iff, lutEntry_eq_append_iff, exists_and_left, exists_eq', and_true]

-- ## The table by the ranges of its bytes

/-- R104 by the ranges of R100: a byte that lies where the alphabet has symbol `n` has the entry `{1, n}`. -/
theorem toNat_s2i_of_range {b : Byte} {n : Nat}
    (hb : n ≤ 25 ∧ b.toNat = 0x41 + n ∨ 26 ≤ n ∧ n ≤ 51 ∧ b.toNat = 0x61 + (n - 26) ∨
      52 ≤ n ∧ n ≤ 61 ∧ b.toNat = 0x30 + (n - 52)) : (s2i b).toNat = 64 + n := by
  have hn : (BitVec.ofNat 6 n).toNat = n := by
    rw [BitVec.toNat_ofNat]
    omega
  obtain ⟨hupper, hlower, hdigit, -⟩ := alphabetLutContents (BitVec.ofNat 6 n)
  rw [hn] at hupper hlower hdigit
  have halpha : alpha (BitVec.ofNat 6 n) = b := BitVec.eq_of_toNat_eq (by omega)
  rw [← halpha, s2i_alpha, toNat_one_append, hn]

/-- The 64 symbols are 64 of the 256 bytes, so 64 entries have `V = 1`. -/
theorem countP_s2i_valid :
    (List.range 256).countP (fun n => (s2i (BitVec.ofNat 8 n)).extractLsb' 6 1 == 1) = 64 := by
  have hinj : Function.Injective fun k : Fin 64 => (alpha ⟨k⟩).toNat := fun k l h =>
    congrArg BitVec.toFin (alphabetIsInjective _ _ (BitVec.eq_of_toNat_eq h))
  have hperm : ((List.range 256).filter fun n => (s2i (BitVec.ofNat 8 n)).extractLsb' 6 1 == 1).Perm
      ((List.finRange 64).map fun k => (alpha ⟨k⟩).toNat) := by
    rw [List.perm_ext_iff_of_nodup (List.nodup_range.filter _) ((List.nodup_finRange 64).map hinj)]
    intro n
    simp only [List.mem_filter, List.mem_range, beq_iff_eq, s2i_valid_iff, List.mem_map,
      List.mem_finRange, true_and]
    constructor
    · rintro ⟨hn, i, hi⟩
      exact ⟨i.toFin, by simp [hi, Nat.mod_eq_of_lt hn]⟩
    · rintro ⟨k, rfl⟩
      exact ⟨(alpha ⟨k⟩).isLt, ⟨k⟩, by simp⟩
  rw [List.countP_eq_length_filter, hperm.length_eq, List.length_map, List.length_finRange]

/-- Settles O9: the ranges of the table are those of the alphabet (R100), read through the inverse law. -/
theorem symbolToIndexLutContents : Obligations.SymbolToIndexLutContents := by
  refine ⟨fun b => ⟨fun i => s2i_eq_append_iff.mpr, s2i_eq_zero, fun _ _ => toNat_s2i_of_range (by omega),
    fun _ _ => toNat_s2i_of_range (by omega), fun _ _ => toNat_s2i_of_range (by omega), ?_, ?_, ?_⟩,
    countP_s2i_valid⟩
  · rintro rfl
    rfl
  · rintro rfl
    rfl
  · intro hupper hlower hdigit hplus hslash
    refine s2i_eq_zero fun i hi => ?_
    subst hi
    obtain ⟨hu, hl, hd, hp, hs, -⟩ := alphabetLutContents i
    have hlt := i.isLt
    have h62 : i.toNat ≠ 62 := mt hp hplus
    have h63 : i.toNat ≠ 63 := mt hs hslash
    omega

-- ## `Classify`

/-- Everything `Classify` can answer (R105): the pad comparator first, then the entry by its field `V`. -/
theorem classify_cases (b : Byte) :
    (b = 0x3D ∧ classify b = some .pad) ∨
    (b ≠ 0x3D ∧ (s2i b).extractLsb' 6 1 = 1 ∧ classify b = some (.sym ((s2i b).extractLsb' 0 6))) ∨
    (b ≠ 0x3D ∧ (s2i b).extractLsb' 6 1 = 0 ∧ classify b = none) := by
  by_cases hpad : b = 0x3D
  · exact .inl ⟨hpad, if_pos hpad⟩
  obtain hv | hv := BitVec.eq_zero_or_eq_one ((s2i b).extractLsb' 6 1)
  · have hinvalid : ¬ (s2i b).extractLsb' 6 1 = 1 := by rw [hv]; decide
    exact .inr (.inr ⟨hpad, hv, (if_neg hpad).trans (if_neg hinvalid)⟩)
  · exact .inr (.inl ⟨hpad, hv, (if_neg hpad).trans (if_pos hv)⟩)

/-- Settles O10: each of the three answers excludes the others, as their conditions do. -/
theorem classifySortsEveryByte : Obligations.ClassifySortsEveryByte := by
  intro b
  simp only [lutEntry_eq_append_iff]
  have hbit : (1 : BitVec 1) ≠ 0 := by decide
  obtain ⟨rfl, hc⟩ | ⟨hpad, hv, hc⟩ | ⟨hpad, hv, hc⟩ := classify_cases b
  · simp only [hc, ne_eq, reduceCtorEq, not_true_eq_false, false_and, Option.some.injEq,
      implies_true, and_self]
  · simp only [hc, hpad, hv, ne_eq, not_false_eq_true, true_and, reduceCtorEq, Option.some.injEq,
      MappedValue.sym.injEq, hbit, implies_true, and_self]
  · simp only [hc, hpad, hv, ne_eq, reduceCtorEq, not_false_eq_true, true_and, hbit.symm, false_and,
      implies_true, and_self]

/-- Settles O11: no symbol is the pad byte (R100), so `Classify` gives back the index its entry holds. -/
theorem tablesAreInverse : Obligations.TablesAreInverse := by
  refine ⟨fun i => ⟨s2i_alpha i, ?_⟩, fun b i h => ?_⟩
  · obtain ⟨-, -, -, -, -, hpad⟩ := alphabetLutContents i
    obtain ⟨-, hsym, -⟩ := classifySortsEveryByte (alpha i)
    exact (hsym i).mpr ⟨hpad, s2i_alpha i⟩
  · obtain ⟨-, hsym, -⟩ := classifySortsEveryByte b
    obtain ⟨-, hentry⟩ := (hsym i).mp h
    exact s2i_eq_append_iff.mp hentry

end Sys2Proof.Machine
end

section
/-! PROOFS. The groups and windows of the encoder (41_encoder.md R120 to R123). -/

namespace Sys2Proof.Machine

-- ## The short groups (R121, R122)

/-- Symbol 1 of a one-byte window is that of a group whose second byte is 0. -/
theorem encIdx1_zero (a : Byte) : encIdx1 a 0 = ((a &&& 0x3) <<< 4).setWidth 6 := by
  simp [encIdx1]

/-- Symbol 2 of a two-byte window is that of a group whose third byte is 0. -/
theorem encIdx2_zero (b : Byte) : encIdx2 b 0 = ((b &&& 0xF) <<< 2).setWidth 6 := by
  simp [encIdx2]

/-- R121 in the indices of R120: a missing third byte counts as 0. -/
theorem encodeGroup2_eq_indices (a b : Byte) :
    encodeGroup2 a b = [alpha (encIdx0 a), alpha (encIdx1 a b), alpha (encIdx2 b 0), padByte] := by
  rw [encodeGroup2, encIdx2_zero]

/-- R122 in the indices of R120: a missing second byte counts as 0. -/
theorem encodeGroup1_eq_indices (a : Byte) :
    encodeGroup1 a = [alpha (encIdx0 a), alpha (encIdx1 a 0), padByte, padByte] := by
  rw [encodeGroup1, encIdx1_zero]

/-- Settles O12: the indices are the slices of the group, in which a missing byte is 0. -/
theorem encodeGroupsTakeSixBitsEach : Obligations.EncodeGroupsTakeSixBitsEach := by
  intro a b c
  refine ⟨encodeGroup3_eq_slices a b c, ?_, ?_⟩
  · rw [encodeGroup2_eq_indices, encIdx0_eq_slice a b 0, encIdx1_eq_slice a b 0, encIdx2_eq_slice a b 0,
      padByte]
  · rw [encodeGroup1_eq_indices, encIdx0_eq_slice a 0 0, encIdx1_eq_slice a 0 0, padByte]

-- ## The short last window (R123)

/-- R121, R123: two bytes left at window `k` give the last Quartet by `EncodeGroup2`. -/
theorem encodeSeq_drop_of_twoBytes {inp : List Byte} {k : Nat} (h : inp.length = 3 * k + 2) :
    (encodeSeq inp).drop (4 * k) = encodeGroup2 inp[3 * k] inp[3 * k + 1] := by
  rw [encodeSeq_drop, List.drop_eq_getElem_cons (by omega), List.drop_eq_getElem_cons (by omega),
    List.drop_eq_nil_of_le h.le, encodeSeq]

/-- R122, R123: one byte left at window `k` gives the last Quartet by `EncodeGroup1`. -/
theorem encodeSeq_drop_of_oneByte {inp : List Byte} {k : Nat} (h : inp.length = 3 * k + 1) :
    (encodeSeq inp).drop (4 * k) = encodeGroup1 inp[3 * k] := by
  rw [encodeSeq_drop, List.drop_eq_getElem_cons (by omega), List.drop_eq_nil_of_le h.le, encodeSeq]

/-- Settles O14: the Quartets past window `k` encode the input past it, and the first of them is the group
of the bytes that are left. -/
theorem encodeSeqByWindows : Obligations.EncodeSeqByWindows := by
  refine fun inp => ⟨encodeSeq_length inp, fun k hk => ⟨fun h => ?_, fun h => ?_, fun h => ?_, fun h => ?_⟩⟩
  · rw [encodeSeq_drop_of_fullWindow (by omega), List.getD_eq_getElem, List.getD_eq_getElem,
      List.getD_eq_getElem]
    rfl
  · rw [encodeSeq_drop_of_twoBytes (by omega), List.getD_eq_getElem, List.getD_eq_getElem]
    rfl
  · rw [encodeSeq_drop_of_oneByte (by omega), List.getD_eq_getElem]
    rfl
  · omega

end Sys2Proof.Machine
end

section
/-! PROOFS. The shape of an encoding (41_encoder.md R124): symbols, then the pads. -/

namespace Sys2Proof.Machine

/-- R124: an encoding is symbols of the alphabet followed by the pads that complete its last Quartet. -/
theorem encodeSeq_eq_symbols_append_pads (inp : List Byte) :
    ∃ syms : List Idx,
      encodeSeq inp = syms.map alpha ++ List.replicate ((3 - inp.length % 3) % 3) padByte := by
  induction inp using encodeSeq.induct with
  | case1 a b c rest ih =>
    obtain ⟨syms, hrest⟩ := ih
    refine ⟨encIdx0 a :: encIdx1 a b :: encIdx2 b c :: encIdx3 c :: syms, ?_⟩
    have hmod : (a :: b :: c :: rest).length % 3 = rest.length % 3 := Nat.add_mod_right _ 3
    rw [encodeSeq, hrest, hmod]
    rfl
  | case2 a b => exact ⟨[encIdx0 a, encIdx1 a b, encIdx2 b 0], encodeGroup2_eq_indices a b⟩
  | case3 a => exact ⟨[encIdx0 a, encIdx1 a 0], encodeGroup1_eq_indices a⟩
  | case4 => exact ⟨[], rfl⟩

/-- R102: the pad is no symbol. -/
theorem padByte_notMem_map_alpha (syms : List Idx) : padByte ∉ syms.map alpha := by
  intro hmem
  obtain ⟨i, -, hi⟩ := List.mem_map.mp hmem
  obtain ⟨-, -, -, -, -, hpad⟩ := alphabetLutContents i
  exact hpad hi

/-- R126: every byte of an encoding is a symbol or the pad. -/
theorem eq_alpha_or_padByte_of_mem_encodeSeq {inp : List Byte} {x : Byte} (h : x ∈ encodeSeq inp) :
    (∃ i : Idx, x = alpha i) ∨ x = padByte := by
  obtain ⟨syms, hseq⟩ := encodeSeq_eq_symbols_append_pads inp
  rw [hseq] at h
  obtain hsym | hpad := List.mem_append.mp h
  · obtain ⟨i, -, hi⟩ := List.mem_map.mp hsym
    exact .inl ⟨i, hi.symm⟩
  · exact .inr (List.eq_of_mem_replicate hpad)

/-- Settles O15: an encoding is symbols, none of them the pad, and then as many pads as the last window lacks
bytes. -/
theorem encodeLengthAndPaddingLaws : Obligations.EncodeLengthAndPaddingLaws := by
  intro c inp _
  obtain ⟨syms, hseq⟩ := encodeSeq_eq_symbols_append_pads inp
  have hnot := padByte_notMem_map_alpha syms
  refine ⟨encodeSeq_length inp, fun hn => ?_, fun hn => ?_, fun hn => ?_, fun hn => ?_⟩
  · rw [encodeSeq_length]
    exact encodedLength_le_maxOut hn
  · rw [hn] at hseq
    rw [hseq.trans (List.append_nil _)]
    exact hnot
  · rw [hn] at hseq
    exact ⟨_, hseq, hnot⟩
  · rw [hn] at hseq
    exact ⟨_, hseq, hnot⟩

end Sys2Proof.Machine
end

section
/-! PROOFS. `ENCODE_BYTES` (41_encoder.md R125, R126). -/

namespace Sys2Proof.Machine

-- ## The result

/-- R125: on the empty input `ENCODE_BYTES` raises `NoInput`. -/
theorem exec_encodeBytes_of_inLen_eq_zero {s : State} (h : s.inLen.toNat = 0) :
    exec .encodeBytes s = .next (raise .noInput s) := by
  rw [exec_eq_finish, commandResult, base64Encoder, if_pos (by rwa [inputBytes_length]), finish]

/-- R124: a full input buffer makes an output of `P_MAX_OUT` bytes, which `OUT_LEN` can count (assumption 2). -/
theorem toNat_outLen_complete_of_full {s : State} (hc : s.cfg.wellFormed)
    (hfull : s.inLen.toNat = s.cfg.maxLen) :
    (complete (encodeSeq (inputBytes s)) s).outLen.toNat = s.cfg.maxOut := by
  obtain ⟨-, hmaxOut, -⟩ := hc
  have hlen : (encodeSeq (inputBytes s)).length = s.cfg.maxOut := by
    rw [encodeSeq_length, inputBytes_length, hfull, Config.maxOut]
  rw [complete_outLen, hlen, BitVec.toNat_ofNat, Nat.mod_eq_of_lt hmaxOut]

/-- Settles O16: `IN_LEN` decides which of its two ends the command takes. -/
theorem encodeBytesResult : Obligations.EncodeBytesResult := by
  refine fun s => ⟨fun hzero => ?_, fun hne => ?_⟩
  · exact ⟨_, exec_encodeBytes_of_inLen_eq_zero (congrArg BitVec.toNat hzero), raise_raised .noInput s⟩
  · exact ⟨_, exec_encodeBytes_of_inLen_ne_zero (mt (BitVec.eq_of_toNat_eq (y := 0)) hne), complete_completed _ s,
      toNat_outLen_complete_of_full⟩

-- ## The indices as numbers

/-- The formula of symbols 1 and 2, the low bits of one byte before the high bits of the next, is the whole
value of its six bits, when the mask `m` and the shifts keep both parts below 64. -/
theorem toNat_joinedBits (x y m : Byte) {n k : Nat} (hm : m.toNat * 2 ^ n < 2 ^ 6) (hk : 2 ^ 8 ≤ 2 ^ k * 2 ^ 6) :
    ((((x &&& m) <<< n) ||| (y >>> k)).setWidth 6).toNat =
      ((x.toNat &&& m.toNat) <<< n) ||| (y.toNat >>> k) := by
  have hhigh : (x.toNat &&& m.toNat) <<< n < 2 ^ 6 := by
    rw [Nat.shiftLeft_eq]
    exact (Nat.mul_le_mul_right _ Nat.and_le_right).trans_lt hm
  have hlow : y.toNat >>> k < 2 ^ 6 := by
    rw [Nat.shiftRight_eq_div_pow]
    exact Nat.div_lt_of_lt_mul (y.isLt.trans_le hk)
  rw [BitVec.toNat_setWidth, BitVec.toNat_or, BitVec.toNat_shiftLeft, BitVec.toNat_and,
    BitVec.toNat_ushiftRight, Nat.mod_eq_of_lt (hhigh.trans (by decide)),
    Nat.mod_eq_of_lt (Nat.or_lt_two_pow hhigh hlow)]

section
variable (a b c : Byte)

/-- The index of symbol 0 is the whole formula. -/
theorem toNat_encIdx0 : (encIdx0 a).toNat = a.toNat >>> 2 := by
  rw [encIdx0, BitVec.toNat_setWidth, BitVec.toNat_ushiftRight, Nat.shiftRight_eq_div_pow]
  exact Nat.mod_eq_of_lt (Nat.div_lt_of_lt_mul a.isLt)

/-- The index of symbol 1 is the whole formula. -/
theorem toNat_encIdx1 : (encIdx1 a b).toNat = ((a.toNat &&& 0x3) <<< 4) ||| (b.toNat >>> 4) :=
  toNat_joinedBits a b 0x3 (by decide) (by decide)

/-- The index of symbol 2 is the whole formula. -/
theorem toNat_encIdx2 : (encIdx2 b c).toNat = ((b.toNat &&& 0xF) <<< 2) ||| (c.toNat >>> 6) :=
  toNat_joinedBits b c 0xF (by decide) (by decide)

/-- The index of symbol 3 is the whole formula. -/
theorem toNat_encIdx3 : (encIdx3 c).toNat = c.toNat &&& 0x3F := by
  rw [encIdx3, BitVec.toNat_setWidth, BitVec.toNat_and]
  exact Nat.mod_eq_of_lt (Nat.and_le_right.trans_lt (by decide))

/-- R122: without a second byte the index of symbol 1 is its first part. -/
theorem toNat_encIdx1_zero : (encIdx1 a 0).toNat = (a.toNat &&& 0x3) <<< 4 :=
  (toNat_encIdx1 a 0).trans (Nat.or_zero _)

/-- R121: without a third byte the index of symbol 2 is its first part. -/
theorem toNat_encIdx2_zero : (encIdx2 b 0).toNat = (b.toNat &&& 0xF) <<< 2 :=
  (toNat_encIdx2 b 0).trans (Nat.or_zero _)

end

/-- R126: a formula whose value is an index is at most 63. -/
theorem toNat_idx_eq_and_le {i : Idx} {n : Nat} (h : i.toNat = n) : i.toNat = n ∧ n ≤ 63 := by
  have hi := i.isLt
  exact ⟨h, by omega⟩

/-- R126: the bytes `ENCODE_BYTES` specifies are symbols and pads, whichever end it takes. -/
theorem exec_encodeBytes_output (s : State) : ∃ t, exec .encodeBytes s = .next t ∧
    ∀ j x, t.outMem.read? j = some x → (∃ i : Idx, x = alpha i) ∨ x = padByte := by
  obtain ⟨hempty, hinput⟩ := encodeBytesResult s
  by_cases hzero : s.inLen = 0
  · obtain ⟨t, hexec, hraised⟩ := hempty hzero
    exact ⟨t, hexec, fun j x hx => nomatch (hraised.bytes j).symm.trans hx⟩
  · obtain ⟨t, hexec, hcompleted, -⟩ := hinput hzero
    refine ⟨t, hexec, fun j x hx => eq_alpha_or_padByte_of_mem_encodeSeq (inp := inputBytes s) ?_⟩
    exact List.mem_of_getElem? ((hcompleted.bytes j).symm.trans hx)

/-- Settles O13: each 6-bit index is its whole formula, so the formula is below 64; a missing byte counts as 0
in it. -/
theorem encodeIndexRangeAndClosure : Obligations.EncodeIndexRangeAndClosure := by
  refine ⟨fun a b c => ⟨toNat_idx_eq_and_le (toNat_encIdx0 a), toNat_idx_eq_and_le (toNat_encIdx1 a b),
    toNat_idx_eq_and_le (toNat_encIdx2 b c), toNat_idx_eq_and_le (toNat_encIdx3 c), ?_, ?_⟩,
    exec_encodeBytes_output⟩
  · obtain ⟨hi, hle⟩ := toNat_idx_eq_and_le (toNat_encIdx2_zero b)
    exact ⟨hle, _, hi, congrArg (·[2]?) (encodeGroup2_eq_indices a b)⟩
  · obtain ⟨hi, hle⟩ := toNat_idx_eq_and_le (toNat_encIdx1_zero a)
    exact ⟨hle, _, hi, congrArg (·[1]?) (encodeGroup1_eq_indices a)⟩

end Sys2Proof.Machine
end

section
/-! PROOFS. The Triplets of the decoder (42_decoder.md R146): the bytes as slices of the 24-bit group, and the
indices of the encoder turned back into its bytes. -/

namespace Sys2Proof.Machine

-- ## The bytes by their bits

/-- Byte 0 is all of index 0, then the high two bits of index 1. -/
theorem decByte0_eq_append (i0 i1 : Idx) : decByte0 i0 i1 = i0 ++ i1.extractLsb' 4 2 := by
  ext i hi
  rw [BitVec.getElem_append]
  interval_cases i <;> simp [decByte0]

/-- Byte 1 is the low four bits of index 1, then the high four bits of index 2. -/
theorem decByte1_eq_append (i1 i2 : Idx) : decByte1 i1 i2 = i1.extractLsb' 0 4 ++ i2.extractLsb' 2 4 := by
  ext i hi
  rw [BitVec.getElem_append]
  interval_cases i <;> simp [decByte1]

/-- Byte 2 is the low two bits of index 2, then all of index 3. -/
theorem decByte2_eq_append (i2 i3 : Idx) : decByte2 i2 i3 = i2.extractLsb' 0 2 ++ i3 := by
  ext i hi
  rw [BitVec.getElem_append]
  interval_cases i <;> simp [decByte2]

/-- A slice of a slice of a word is a slice of the word. -/
theorem extractLsb'_extractLsb' {w a n b m : Nat} (x : BitVec w) (h : b + m ≤ n) :
    (x.extractLsb' a n).extractLsb' b m = x.extractLsb' (a + b) m := by
  ext i hi
  simp only [BitVec.getElem_extractLsb', BitVec.getLsbD_extractLsb', Nat.add_assoc,
    decide_eq_true (show b + i < n by omega), Bool.true_and]

section
variable (g : BitVec 24)

/-- Byte 0 of the indices of a group has the bits 23:16 of the group. -/
theorem decByte0_slices : decByte0 (g.extractLsb' 18 6) (g.extractLsb' 12 6) = g.extractLsb' 16 8 := by
  rw [decByte0_eq_append, extractLsb'_extractLsb' g (by decide)]
  exact BitVec.extractLsb'_append_extractLsb'_eq_extractLsb' rfl

/-- Byte 1 of the indices of a group has the bits 15:8 of the group. -/
theorem decByte1_slices : decByte1 (g.extractLsb' 12 6) (g.extractLsb' 6 6) = g.extractLsb' 8 8 := by
  rw [decByte1_eq_append, extractLsb'_extractLsb' g (by decide), extractLsb'_extractLsb' g (by decide)]
  exact BitVec.extractLsb'_append_extractLsb'_eq_extractLsb' rfl

/-- Byte 2 of the indices of a group has the bits 7:0 of the group. -/
theorem decByte2_slices : decByte2 (g.extractLsb' 6 6) (g.extractLsb' 0 6) = g.extractLsb' 0 8 := by
  rw [decByte2_eq_append, extractLsb'_extractLsb' g (by decide)]
  exact BitVec.extractLsb'_append_extractLsb'_eq_extractLsb' rfl

end

-- ## The indices of a group

/-- The slices of six bits of `{i0, i1, i2, i3}` are the four indices. -/
theorem idx_slices (i0 i1 i2 i3 : Idx) :
    (i0 ++ i1 ++ i2 ++ i3 : BitVec 24).extractLsb' 18 6 = i0 ∧
    (i0 ++ i1 ++ i2 ++ i3 : BitVec 24).extractLsb' 12 6 = i1 ∧
    (i0 ++ i1 ++ i2 ++ i3 : BitVec 24).extractLsb' 6 6 = i2 ∧
    (i0 ++ i1 ++ i2 ++ i3 : BitVec 24).extractLsb' 0 6 = i3 := by
  refine ⟨?_, ?_, ?_, BitVec.extractLsb'_append_eq_right⟩
  · rw [BitVec.extractLsb'_append_eq_of_le (by decide), BitVec.extractLsb'_append_eq_of_le (by decide)]
    exact BitVec.extractLsb'_append_eq_left
  · rw [BitVec.extractLsb'_append_eq_of_le (by decide), BitVec.extractLsb'_append_eq_of_le (by decide)]
    exact BitVec.extractLsb'_append_eq_right
  · rw [BitVec.extractLsb'_append_eq_of_le (by decide)]
    exact BitVec.extractLsb'_append_eq_right

/-- R146 in the bits of the group, for any four indices. -/
theorem decBytes_eq_slices (i0 i1 i2 i3 : Idx) :
    decByte0 i0 i1 = (i0 ++ i1 ++ i2 ++ i3 : BitVec 24).extractLsb' 16 8 ∧
    decByte1 i1 i2 = (i0 ++ i1 ++ i2 ++ i3 : BitVec 24).extractLsb' 8 8 ∧
    decByte2 i2 i3 = (i0 ++ i1 ++ i2 ++ i3 : BitVec 24).extractLsb' 0 8 := by
  obtain ⟨h0, h1, h2, h3⟩ := idx_slices i0 i1 i2 i3
  rw [← decByte0_slices, ← decByte1_slices, ← decByte2_slices, h0, h1, h2, h3]
  exact ⟨rfl, rfl, rfl⟩

/-- Settles O21: a short Triplet is the front of the one in which the missing indices are 0. -/
theorem decodeGroupRebuildsTheBytes : Obligations.DecodeGroupRebuildsTheBytes := by
  intro i0 i1 i2 i3 v3
  obtain ⟨hfull0, hfull1, hfull2⟩ := decBytes_eq_slices i0 i1 i2 i3
  obtain ⟨htwo0, htwo1, -⟩ := decBytes_eq_slices i0 i1 i2 0
  obtain ⟨hone0, -⟩ := decBytes_eq_slices i0 i1 0 0
  refine ⟨?_, ?_, ?_⟩
  · simp only [decodeGroup, hfull0, hfull1, hfull2]
  · simp only [decodeGroup, ← htwo0, ← htwo1]
  · simp only [decodeGroup, ← hone0]

-- ## The encoder's indices turned back

section
variable (a b c : Byte)

/-- Symbols 0 and 1 hold the first byte. -/
@[simp] theorem decByte0_encIdx : decByte0 (encIdx0 a) (encIdx1 a b) = a := by
  rw [encIdx0_eq_slice a b 0, encIdx1_eq_slice a b 0, decByte0_slices,
    BitVec.extractLsb'_append_eq_of_le (by decide)]
  exact BitVec.extractLsb'_append_eq_left

/-- Symbols 1 and 2 hold the second byte. -/
@[simp] theorem decByte1_encIdx : decByte1 (encIdx1 a b) (encIdx2 b c) = b := by
  rw [encIdx1_eq_slice a b c, encIdx2_eq_slice a b c, decByte1_slices,
    BitVec.extractLsb'_append_eq_of_le (by decide)]
  exact BitVec.extractLsb'_append_eq_right

/-- Symbols 2 and 3 hold the third byte. -/
@[simp] theorem decByte2_encIdx : decByte2 (encIdx2 b c) (encIdx3 c) = c := by
  rw [encIdx2_eq_slice 0 b c, encIdx3_eq_slice 0 b c, decByte2_slices]
  exact BitVec.extractLsb'_append_eq_right

end

end Sys2Proof.Machine
end

section
/-! PROOFS. The placement checks and the decode of a mapped sequence (42_decoder.md R144 to R149). -/

namespace Sys2Proof.Machine

-- ## The placement checks

/-- The checks of R144 and R145 together: whether a mode rejects the Quartets. -/
def padFault (mode : PadCheck) (qs : List Quartet) : Bool :=
  qs.any leadingPad || (mode == .strict && strictPadFault qs)

/-- `DecodeSeq` (R149): an error exactly when a placement check fails, and else the Triplets in order. -/
theorem decodeSeq_eq_ite (mode : PadCheck) (m : List MappedValue) :
    decodeSeq mode m = if padFault mode (quartets m) then .error .invalidPadPlacement
      else .ok ((quartets m).flatMap decodeGroup) := by
  simp only [decodeSeq, padFault, Bool.or_eq_true, Bool.and_eq_true, beq_iff_eq]
  by_cases hlead : (quartets m).any leadingPad = true
  · rw [if_pos hlead, if_pos (.inl hlead)]
  · rw [if_neg hlead]
    simp only [hlead, Bool.false_eq_true, false_or]

/-- What a mapped sequence decodes to. -/
theorem decodeSeq_eq_ok_iff {mode : PadCheck} {m : List MappedValue} {out : List Byte} :
    decodeSeq mode m = .ok out ↔
      padFault mode (quartets m) = false ∧ (quartets m).flatMap decodeGroup = out := by
  rw [decodeSeq_eq_ite]
  cases padFault mode (quartets m) with
  | true => simp
  | false => simp

/-- `LENIENT` checks each Quartet by itself (R147). -/
@[simp] theorem padFault_lenient (qs : List Quartet) : padFault .lenient qs = qs.any leadingPad :=
  Bool.or_false _

@[simp] theorem sym_beq_pad (i : Idx) : (MappedValue.sym i == .pad) = false := rfl

/-- A Quartet of symbols in front changes no check, in either mode. -/
@[simp] theorem padFault_symbols_cons (mode : PadCheck) (i0 i1 i2 i3 : Idx) (qs : List Quartet) :
    padFault mode (⟨.sym i0, .sym i1, .sym i2, .sym i3⟩ :: qs) = padFault mode qs := by
  cases qs with
  | nil => cases mode <;> rfl
  | cons r qs => simp [padFault, leadingPad, strictPadFault]

/-- `STRICT` accepts a single Quartet whose pads stand at its end, in the positions 2 and 3 (R144, R145). -/
theorem padFault_strict_singleton {q : Quartet} :
    padFault .strict [q] = false ↔
      q.v0 ≠ .pad ∧ q.v1 ≠ .pad ∧ (q.v2 = .pad → q.v3 = .pad) := by
  simp [padFault, leadingPad, strictPadFault, and_assoc]

/-- `STRICT` accepts no pad in a Quartet that is not the final one (R144, R145). -/
theorem padFault_strict_cons_cons {q r : Quartet} {qs : List Quartet} :
    padFault .strict (q :: r :: qs) = false ↔
      (q.v0 ≠ .pad ∧ q.v1 ≠ .pad ∧ q.v2 ≠ .pad ∧ q.v3 ≠ .pad) ∧ padFault .strict (r :: qs) = false := by
  simp only [padFault, leadingPad, strictPadFault, List.any_cons, List.dropLast_cons_cons, BEq.rfl, Bool.true_and,
    Bool.or_eq_false_iff, beq_eq_false_iff_ne, Bool.and_eq_false_imp, beq_iff_eq]
  tauto

/-- Settles O18: the Quartet stands among those of the sequence, and its leading pad fails R144. -/
theorem leadingPadIsRejectedInBothModes : Obligations.LeadingPadIsRejectedInBothModes := by
  intro mode pre post v0 v1 v2 v3 hpre hpad
  have hq : quartets (pre ++ [v0, v1, v2, v3] ++ post) = quartets pre ++ ⟨v0, v1, v2, v3⟩ :: quartets post := by
    rw [List.append_assoc, quartets_append _ _ hpre]
    rfl
  have hlead : leadingPad ⟨v0, v1, v2, v3⟩ = true := by simpa [leadingPad] using hpad
  rw [decodeSeq_eq_ite, hq, if_pos]
  simp [padFault, hlead]

/-- Settles O20: under `LENIENT` both the check and the Triplets of a concatenation are those of its parts. -/
theorem lenientDecodesQuartetsIndependently : Obligations.LenientDecodesQuartetsIndependently := by
  intro m₁ m₂ hlen
  simp only [decodeSeq_eq_ok_iff, padFault_lenient]
  refine ⟨?_, ?_⟩
  · rintro _ _ ⟨hok₁, rfl⟩ ⟨hok₂, rfl⟩
    rw [quartets_append _ _ hlen, List.any_append, List.flatMap_append, hok₁, hok₂]
    exact ⟨rfl, rfl⟩
  · rintro v0 v1 v2 v3 rfl h0 h1
    simp [quartets, leadingPad, h0, h1]

-- ## Symbols, then pads

/-- A Quartet of symbols in front of an accepted sequence adds its Triplet. -/
theorem decodeSeq_symbols_cons {mode : PadCheck} {m : List MappedValue} {out : List Byte}
    (h : decodeSeq mode m = .ok out) (i0 i1 i2 i3 : Idx) :
    decodeSeq mode (.sym i0 :: .sym i1 :: .sym i2 :: .sym i3 :: m) =
      .ok (decByte0 i0 i1 :: decByte1 i1 i2 :: decByte2 i2 i3 :: out) := by
  obtain ⟨hok, rfl⟩ := decodeSeq_eq_ok_iff.mp h
  rw [decodeSeq_eq_ok_iff, quartets, padFault_symbols_cons]
  exact ⟨hok, rfl⟩

/-- The final Quartets with two pads and with one (R146), accepted in both modes. -/
theorem decodeSeq_padded (mode : PadCheck) (i0 i1 i2 : Idx) :
    decodeSeq mode [.sym i0, .sym i1, .pad, .pad] = .ok [decByte0 i0 i1] ∧
    decodeSeq mode [.sym i0, .sym i1, .sym i2, .pad] = .ok [decByte0 i0 i1, decByte1 i1 i2] := by
  cases mode <;> exact ⟨rfl, rfl⟩

/-- R149, R151: symbols and at most two pads that complete the last Quartet decode in either mode, to three
bytes for each Quartet less one for each pad. -/
theorem decodeSeq_symbols_append_pads (mode : PadCheck) {p : Nat} (hp : p ≤ 2) (syms : List Idx)
    (hlen : (syms.length + p) % 4 = 0) :
    ∃ out, decodeSeq mode (syms.map .sym ++ List.replicate p .pad) = .ok out ∧
      out.length = 3 * ((syms.length + p) / 4) - p := by
  match syms, hlen with
  | [], hlen =>
    obtain rfl : p = 0 := by simp only [List.length_nil] at hlen; omega
    exact ⟨[], by cases mode <;> rfl, rfl⟩
  | [_], hlen => simp only [List.length_cons, List.length_nil] at hlen; omega
  | [i0, i1], hlen =>
    obtain rfl : p = 2 := by simp only [List.length_cons, List.length_nil] at hlen; omega
    exact ⟨_, (decodeSeq_padded mode i0 i1 i1).1, by simp⟩
  | [i0, i1, i2], hlen =>
    obtain rfl : p = 1 := by simp only [List.length_cons, List.length_nil] at hlen; omega
    exact ⟨_, (decodeSeq_padded mode i0 i1 i2).2, by simp⟩
  | i0 :: i1 :: i2 :: i3 :: syms, hlen =>
    simp only [List.length_cons] at hlen ⊢
    obtain ⟨out, hok, hout⟩ := decodeSeq_symbols_append_pads mode hp syms (by omega)
    refine ⟨_, decodeSeq_symbols_cons hok i0 i1 i2 i3, ?_⟩
    simp only [List.length_cons]
    omega

/-- A value that is no pad is a symbol (R9). -/
theorem exists_sym_of_ne_pad {v : MappedValue} (h : v ≠ .pad) : ∃ i, v = .sym i := by
  cases v with
  | sym i => exact ⟨i, rfl⟩
  | pad => exact absurd rfl h

/-- R144, R145: what passes the checks of `STRICT` is symbols followed by at most two pads. -/
theorem exists_symbols_append_pads {m : List MappedValue} (hlen : m.length % 4 = 0)
    (h : padFault .strict (quartets m) = false) :
    ∃ (syms : List Idx) (p : Nat), p ≤ 2 ∧ m = syms.map .sym ++ List.replicate p .pad := by
  match m, hlen with
  | [], _ => exact ⟨[], 0, by decide, rfl⟩
  | [_], hlen | [_, _], hlen | [_, _, _], hlen => simp at hlen
  | [v0, v1, v2, v3], _ =>
    obtain ⟨h0, h1, h23⟩ := padFault_strict_singleton.mp h
    obtain ⟨i0, rfl⟩ := exists_sym_of_ne_pad h0
    obtain ⟨i1, rfl⟩ := exists_sym_of_ne_pad h1
    match v2, v3, h23 with
    | .sym i2, .sym i3, _ => exact ⟨[i0, i1, i2, i3], 0, by decide, rfl⟩
    | .sym i2, .pad, _ => exact ⟨[i0, i1, i2], 1, by decide, rfl⟩
    | .pad, .pad, _ => exact ⟨[i0, i1], 2, by decide, rfl⟩
    | .pad, .sym _, h23 => exact nomatch h23 rfl
  | [_, _, _, _, _], hlen | [_, _, _, _, _, _], hlen | [_, _, _, _, _, _, _], hlen => simp at hlen
  | v0 :: v1 :: v2 :: v3 :: w0 :: w1 :: w2 :: w3 :: m, hlen =>
    obtain ⟨⟨h0, h1, h2, h3⟩, hrest⟩ := padFault_strict_cons_cons.mp h
    obtain ⟨i0, rfl⟩ := exists_sym_of_ne_pad h0
    obtain ⟨i1, rfl⟩ := exists_sym_of_ne_pad h1
    obtain ⟨i2, rfl⟩ := exists_sym_of_ne_pad h2
    obtain ⟨i3, rfl⟩ := exists_sym_of_ne_pad h3
    have hlen' : (w0 :: w1 :: w2 :: w3 :: m).length % 4 = 0 := by
      simp only [List.length_cons] at hlen ⊢
      omega
    obtain ⟨syms, p, hp, hm⟩ := exists_symbols_append_pads hlen' hrest
    exact ⟨i0 :: i1 :: i2 :: i3 :: syms, p, hp, by rw [hm]; rfl⟩

/-- Settles O19: what passes the checks of `STRICT` has this form, and what has this form decodes in either
mode. -/
theorem strictAcceptsOnlyTrailingPads : Obligations.StrictAcceptsOnlyTrailingPads := by
  intro m hlen _
  constructor
  · rintro ⟨out, hok⟩
    exact exists_symbols_append_pads hlen (decodeSeq_eq_ok_iff.mp hok).1
  · rintro ⟨syms, p, hp, rfl⟩
    rw [List.length_append, List.length_map, List.length_replicate] at hlen
    obtain ⟨out, hok, -⟩ := decodeSeq_symbols_append_pads .strict hp syms hlen
    exact ⟨out, hok⟩

-- ## The unused low bits (R148)

/-- Symbol Quartets in front of an accepted sequence put their Triplets, the same for every such sequence,
before its own. -/
theorem decodeSeq_symbols_append {mode : PadCheck} {syms : List Idx} (hlen : syms.length % 4 = 0) :
    ∃ pre, ∀ m out, decodeSeq mode m = .ok out → decodeSeq mode (syms.map .sym ++ m) = .ok (pre ++ out) := by
  match syms, hlen with
  | [], _ => exact ⟨[], fun _ _ h => h⟩
  | [_], hlen | [_, _], hlen | [_, _, _], hlen => simp at hlen
  | i0 :: i1 :: i2 :: i3 :: syms, hlen =>
    have hlen' : syms.length % 4 = 0 := by
      simp only [List.length_cons] at hlen
      omega
    obtain ⟨pre, hpre⟩ := decodeSeq_symbols_append (mode := mode) hlen'
    exact ⟨_ :: _ :: _ :: pre, fun m out h => decodeSeq_symbols_cons (hpre m out h) i0 i1 i2 i3⟩

/-- Settles O22: the bytes that a padded Quartet gives have none of the unused bits in them. -/
theorem unusedLowBitsAreIgnored : Obligations.UnusedLowBitsAreIgnored := by
  intro mode syms i0 i1 j1 i2 j2 hlen
  obtain ⟨pre, hpre⟩ := decodeSeq_symbols_append (mode := mode) hlen
  refine ⟨fun hbits => ?_, fun hbits => ?_⟩
  · have hbyte : decByte0 i0 j1 = decByte0 i0 i1 := by
      rw [decByte0_eq_append, decByte0_eq_append, hbits]
    exact ⟨_, hpre _ _ (decodeSeq_padded mode i0 i1 i1).1, hbyte ▸ hpre _ _ (decodeSeq_padded mode i0 j1 j1).1⟩
  · have hbyte : decByte1 i1 j2 = decByte1 i1 i2 := by
      rw [decByte1_eq_append, decByte1_eq_append, hbits]
    exact ⟨_, hpre _ _ (decodeSeq_padded mode i0 i1 i2).2, hbyte ▸ hpre _ _ (decodeSeq_padded mode i0 i1 j2).2⟩

end Sys2Proof.Machine
end

section
/-! PROOFS. The mapped values of the decoder's input (40_tables.md R105, 42_decoder.md R140, R143), and the decoder
on valid input. -/

namespace Sys2Proof.Machine

-- ## Mapped values

/-- The mapped value of a valid byte; `Pad` stands for an invalid one, as in `mappedAt`. -/
def mapByte (b : Byte) : MappedValue := (classify b).getD .pad

/-- The byte that a mapped value stands for. -/
def MappedValue.byte : MappedValue → Byte
  | .sym i => alpha i
  | .pad   => padByte

@[simp] theorem classify_alpha (i : Idx) : classify (alpha i) = some (.sym i) := by
  obtain ⟨-, hsym⟩ := tablesAreInverse.1 i
  exact hsym

@[simp] theorem classify_padByte : classify padByte = some .pad := rfl

@[simp] theorem mapByte_alpha (i : Idx) : mapByte (alpha i) = .sym i := by
  rw [mapByte, classify_alpha, Option.getD_some]

@[simp] theorem mapByte_padByte : mapByte padByte = .pad := rfl

/-- A valid byte is the byte of its mapped value (R106). -/
theorem byte_mapByte {b : Byte} (h : classify b ≠ none) : (mapByte b).byte = b := by
  obtain ⟨v, hv⟩ := Option.ne_none_iff_exists'.mp h
  rw [mapByte, hv, Option.getD_some]
  cases v with
  | sym i => exact tablesAreInverse.2 b i hv
  | pad => exact ((classifySortsEveryByte b).1.mp hv).symm

/-- A valid byte maps to `Pad` exactly when it is the pad symbol (R105). -/
theorem mapByte_eq_pad_iff {b : Byte} (h : classify b ≠ none) : mapByte b = .pad ↔ b = 0x3D := by
  constructor
  · intro hpad
    rw [← byte_mapByte h, hpad]
    rfl
  · rintro rfl
    rfl

/-- A valid input is spelled by its mapped values. -/
theorem map_byte_map_mapByte {inp : List Byte} (h : ∀ b ∈ inp, classify b ≠ none) :
    (inp.map mapByte).map MappedValue.byte = inp := by
  rw [List.map_map]
  exact (List.map_congr_left fun b hb => byte_mapByte (h b hb)).trans (List.map_id inp)

-- ## The decoder on valid input

@[simp] theorem lenBad_iff (n : Nat) : lenBad n = true ↔ n % 4 ≠ 0 := by
  simp [lenBad]

/-- Which error `CheckInput` reports (R142). -/
theorem checkInput_iff (order : ErrOrder) (sb lb : Bool) :
    (checkInput order sb lb = some .invalidSymbol ↔ sb = true ∧ (order = .symbolFirst ∨ ¬ lb = true)) ∧
    (checkInput order sb lb = some .malformedLength ↔ lb = true ∧ (order = .lengthFirst ∨ ¬ sb = true)) ∧
    (checkInput order sb lb = none ↔ ¬ sb = true ∧ ¬ lb = true) := by
  cases order with
  | symbolFirst => cases sb <;> cases lb <;> simp [checkInput]
  | lengthFirst => cases sb <;> cases lb <;> simp [checkInput]

section
variable {c : Config} {inp : List Byte}

/-- R150: the empty input is `NoInput`. -/
theorem base64Decoder_of_empty (h : inp.length = 0) : base64Decoder c inp = .error .noInput := by
  rw [base64Decoder, if_pos h]

/-- R150: what the first pass reports is the decoder's error. -/
theorem base64Decoder_of_checkInput {k : ErrKind} (hne : inp.length ≠ 0)
    (h : checkInput c.errOrder (symBad (inp.map classify)) (lenBad inp.length) = some k) :
    base64Decoder c inp = .error k := by
  simp only [base64Decoder, if_neg hne, mapPass, h]

/-- The input has passed `CheckInput` (R142). -/
theorem checkInput_inp_eq_none_iff :
    checkInput c.errOrder (symBad (inp.map classify)) (lenBad inp.length) = none ↔
      (∀ b ∈ inp, classify b ≠ none) ∧ inp.length % 4 = 0 := by
  obtain ⟨-, -, hnone⟩ := checkInput_iff c.errOrder (symBad (inp.map classify)) (lenBad inp.length)
  rw [hnone, symBad_map_classify, lenBad_iff, not_not]
  simp only [not_exists, not_and, ne_eq]

/-- R150: on a valid input the decoder is `DecodeSeq` of the mapped values. -/
theorem base64Decoder_of_valid (hne : inp.length ≠ 0) (hsym : ∀ b ∈ inp, classify b ≠ none)
    (hlen : inp.length % 4 = 0) : base64Decoder c inp = decodeSeq c.padCheck (inp.map mapByte) := by
  have hcheck := (checkInput_inp_eq_none_iff (c := c)).mpr ⟨hsym, hlen⟩
  simp only [base64Decoder, if_neg hne, mapPass, hcheck, filterMap_classify inp hsym]
  rfl

/-- What the decoder accepts is a valid input whose mapped values decode. -/
theorem base64Decoder_ok {out : List Byte} (h : base64Decoder c inp = .ok out) :
    (∀ b ∈ inp, classify b ≠ none) ∧ inp.length % 4 = 0 ∧
      decodeSeq c.padCheck (inp.map mapByte) = .ok out := by
  by_cases hne : inp.length = 0
  · exact nomatch (base64Decoder_of_empty hne).symm.trans h
  cases hcheck : checkInput c.errOrder (symBad (inp.map classify)) (lenBad inp.length) with
  | some k => exact nomatch (base64Decoder_of_checkInput hne hcheck).symm.trans h
  | none =>
    obtain ⟨hsym, hlen⟩ := checkInput_inp_eq_none_iff.mp hcheck
    exact ⟨hsym, hlen, (base64Decoder_of_valid hne hsym hlen).symm.trans h⟩

end

end Sys2Proof.Machine
end

section
/-! PROOFS. The round trip (42_decoder.md R152). -/

namespace Sys2Proof.Machine

/-- R152 on mapped values: the symbols of each window decode to its bytes. -/
theorem decodeSeq_map_encodeSeq (mode : PadCheck) (inp : List Byte) :
    decodeSeq mode ((encodeSeq inp).map mapByte) = .ok inp := by
  induction inp using encodeSeq.induct with
  | case1 a b c rest ih =>
    have hgroup := decodeSeq_symbols_cons ih (encIdx0 a) (encIdx1 a b) (encIdx2 b c) (encIdx3 c)
    rw [decByte0_encIdx, decByte1_encIdx, decByte2_encIdx] at hgroup
    simpa only [encodeSeq, encodeGroup3, List.cons_append, List.nil_append, List.map_cons, mapByte_alpha]
      using hgroup
  | case2 a b =>
    obtain ⟨-, hgroup⟩ := decodeSeq_padded mode (encIdx0 a) (encIdx1 a b) (encIdx2 b 0)
    rw [decByte0_encIdx, decByte1_encIdx] at hgroup
    simpa only [encodeSeq, encodeGroup2_eq_indices, List.map_cons, List.map_nil, mapByte_alpha, mapByte_padByte]
      using hgroup
  | case3 a =>
    obtain ⟨hgroup, -⟩ := decodeSeq_padded mode (encIdx0 a) (encIdx1 a 0) 0
    rw [decByte0_encIdx] at hgroup
    simpa only [encodeSeq, encodeGroup1_eq_indices, List.map_cons, List.map_nil, mapByte_alpha, mapByte_padByte]
      using hgroup
  | case4 => cases mode <;> rfl

/-- An encoding has no invalid byte (R126). -/
theorem classify_ne_none_of_mem_encodeSeq {inp : List Byte} {b : Byte} (h : b ∈ encodeSeq inp) :
    classify b ≠ none := by
  obtain ⟨i, rfl⟩ | rfl := eq_alpha_or_padByte_of_mem_encodeSeq h
  · rw [classify_alpha]
    exact nofun
  · exact nofun

/-- R152: the decoder inverts the encoder, under every value of the parameters. -/
theorem base64Decoder_encodeSeq (c : Config) {inp : List Byte} (hne : inp.length ≠ 0) :
    base64Decoder c (encodeSeq inp) = .ok inp := by
  have hlen := encodeSeq_length inp
  rw [base64Decoder_of_valid (by omega) (fun b => classify_ne_none_of_mem_encodeSeq) (by omega)]
  exact decodeSeq_map_encodeSeq c.padCheck inp

/-- `DECODE_BYTES` ends by `finish` of the decoder's result (R150). -/
theorem exec_decodeBytes_eq {s : State} {r : Except ErrKind (List Byte)}
    (h : base64Decoder s.cfg (inputBytes s) = r) : exec .decodeBytes s = .next (finish r s) := by
  rw [exec_eq_finish, commandResult, h]

/-- The input is not empty when `IN_LEN` is not 0. -/
theorem inputBytes_length_ne_zero {s : State} (h : s.inLen ≠ 0) : (inputBytes s).length ≠ 0 := by
  rw [inputBytes_length]
  exact mt (BitVec.eq_of_toNat_eq (y := 0)) h

/-- The input is a given list when `IN_LEN` is its length and `IN_MEM` holds its bytes. -/
theorem inputBytes_eq {s : State} {bs : List Byte} (hlen : s.inLen.toNat = bs.length)
    (h : ∀ j < bs.length, bs[j]? = some (memRead s j)) : inputBytes s = bs := by
  refine List.ext_getElem ((inputBytes_length s).trans hlen) fun j _ hj => ?_
  rw [inputBytes_getElem]
  exact (Option.some.inj ((List.getElem?_eq_getElem hj).symm.trans (h j hj))).symm

/-- Settles O25: the second input is the encoding of the first, which decodes to the first. -/
theorem decodeBytesInvertsEncodeBytes : Obligations.DecodeBytesInvertsEncodeBytes := by
  intro s₁ t₁ s₂ hcfg hne hfits hexec hlen hbytes
  obtain ⟨-, hmaxOut, -⟩ := hcfg
  have hne' := inputBytes_length_ne_zero hne
  cases (exec_encodeBytes_of_inLen_ne_zero (inputBytes_length s₁ ▸ hne')).symm.trans hexec
  have hout : (encodeSeq (inputBytes s₁)).length < 2 ^ 32 := by
    rw [encodeSeq_length, inputBytes_length]
    exact (encodedLength_le_maxOut hfits).trans_lt hmaxOut
  simp only [complete_outLen, complete_outMem, Memory.read?_writeFrom_nil, BitVec.toNat_ofNat,
    Nat.mod_eq_of_lt hout] at hlen hbytes
  have hinput : inputBytes s₂ = encodeSeq (inputBytes s₁) :=
    inputBytes_eq (by rw [hlen, BitVec.toNat_ofNat, Nat.mod_eq_of_lt hout]) hbytes
  have hdecoded : base64Decoder s₂.cfg (inputBytes s₂) = .ok (inputBytes s₁) := by
    rw [hinput]
    exact base64Decoder_encodeSeq s₂.cfg hne'
  refine ⟨_, exec_decodeBytes_eq hdecoded, complete_code s₂ _, ?_, fun j hj => ?_⟩
  · rw [finish, complete_outLen, inputBytes_length, BitVec.ofNat_toNat, BitVec.setWidth_eq]
  · rw [finish, complete_outMem, Memory.read?_writeFrom_nil, List.getElem?_eq_getElem (by simpa using hj),
      inputBytes_getElem]

end Sys2Proof.Machine
end

section
/-! PROOFS. The output of a successful decode (42_decoder.md R151). -/

namespace Sys2Proof.Machine

/-- A Quartet without a leading pad gives at least one byte (R146). -/
theorem decodeGroup_length_pos {q : Quartet} (h : leadingPad q = false) : 1 ≤ (decodeGroup q).length := by
  simp only [leadingPad, Bool.or_eq_false_iff, beq_eq_false_iff_ne] at h
  obtain ⟨i0, h0⟩ := exists_sym_of_ne_pad h.1
  obtain ⟨i1, h1⟩ := exists_sym_of_ne_pad h.2
  simp only [decodeGroup, h0, h1]
  split
  · simp
  · split
    · simp
    · simp

/-- Quartets without a leading pad give at least one byte each. -/
theorem length_le_flatMap_decodeGroup {qs : List Quartet} (h : qs.any leadingPad = false) :
    qs.length ≤ (qs.flatMap decodeGroup).length := by
  induction qs with
  | nil => simp
  | cons q qs ih =>
    rw [List.any_cons, Bool.or_eq_false_iff] at h
    have hq := decodeGroup_length_pos h.1
    have hqs := ih h.2
    simp only [List.flatMap_cons, List.length_append, List.length_cons]
    omega

/-- A decode gives at least one byte for each Quartet of its input. -/
theorem length_le_of_decodeSeq_eq_ok {mode : PadCheck} {m : List MappedValue} {out : List Byte}
    (h : decodeSeq mode m = .ok out) : m.length / 4 ≤ out.length := by
  obtain ⟨hok, rfl⟩ := decodeSeq_eq_ok_iff.mp h
  rw [padFault, Bool.or_eq_false_iff] at hok
  rw [← quartets_length]
  exact length_le_flatMap_decodeGroup hok.1

/-- R145, R151: what `STRICT` accepts is symbols and at most two pads, and gives three bytes for each Quartet less
one for each pad. -/
theorem base64Decoder_strict_ok {c : Config} {inp out : List Byte} (hmode : c.padCheck = .strict)
    (h : base64Decoder c inp = .ok out) :
    ∃ (syms : List Idx) (p : Nat), p ≤ 2 ∧ inp = syms.map alpha ++ List.replicate p padByte ∧
      out.length = 3 * (inp.length / 4) - p := by
  obtain ⟨hsym, hlen, hdec⟩ := base64Decoder_ok h
  rw [hmode] at hdec
  have hmlen : (inp.map mapByte).length % 4 = 0 := by rwa [List.length_map]
  obtain ⟨syms, p, hp, hm⟩ := exists_symbols_append_pads hmlen (decodeSeq_eq_ok_iff.mp hdec).1
  have hinp : inp = syms.map alpha ++ List.replicate p padByte := by
    rw [← map_byte_map_mapByte hsym, hm, List.map_append, List.map_map, List.map_replicate]
    rfl
  have hcount : inp.length = syms.length + p := by
    rw [hinp, List.length_append, List.length_map, List.length_replicate]
  obtain ⟨out', hdec', hout⟩ := decodeSeq_symbols_append_pads .strict hp syms (by omega)
  rw [← hm, hdec] at hdec'
  cases hdec'
  exact ⟨syms, p, hp, hinp, by rw [hcount, hout]⟩

/-- Symbols and `p` pads have `p` bytes that are the pad, all at the end. -/
theorem count_padByte_symbols_append_pads (syms : List Idx) (p : Nat) :
    (syms.map alpha ++ List.replicate p padByte).count padByte = p := by
  rw [List.count_append, List.count_eq_zero_of_not_mem (padByte_notMem_map_alpha syms), List.count_replicate_self,
    Nat.zero_add]

/-- Settles O23: each accepted Quartet gives one to three bytes; under `STRICT` the pads stand at the end of the
input, and each takes one byte off. -/
theorem decodeOutputLength : Obligations.DecodeOutputLength := by
  intro c inp out h
  obtain ⟨-, -, hdec⟩ := base64Decoder_ok h
  have hlow := length_le_of_decodeSeq_eq_ok hdec
  rw [List.length_map] at hlow
  have hhigh := base64Decoder_length_le h
  refine ⟨⟨hlow, hhigh, by omega, fun hfits => ?_⟩, fun hmode => ?_⟩
  · have hmax := maxLen_le_maxOut c
    omega
  · obtain ⟨syms, p, hp, hinp, hout⟩ := base64Decoder_strict_ok hmode h
    have hcount : inp.count 0x3D = p := hinp ▸ count_padByte_symbols_append_pads syms p
    have hsyms : inp.length - p = (syms.map alpha).length := by
      rw [hinp, List.length_append, List.length_replicate, Nat.add_sub_cancel]
    rw [hcount]
    refine ⟨hp, ?_, hout⟩
    rw [hsyms, hinp, List.drop_left]
    rfl

end Sys2Proof.Machine
end

section
/-! PROOFS. `DECODE_BYTES` on every input (42_decoder.md R150). -/

namespace Sys2Proof.Machine

-- ## The Quartets of the input, by index

/-- R143: the Quartets of `4 * n` values given by index. -/
theorem quartets_map_range (f : Nat → MappedValue) (n : Nat) :
    quartets ((List.range (4 * n)).map f) =
      (List.range n).map fun k => ⟨f (4 * k), f (4 * k + 1), f (4 * k + 2), f (4 * k + 3)⟩ := by
  induction n with
  | zero => rfl
  | succ n ih =>
    have hlast : (List.range (4 * (n + 1))).map f =
        (List.range (4 * n)).map f ++ [f (4 * n), f (4 * n + 1), f (4 * n + 2), f (4 * n + 3)] := by
      simp only [Nat.mul_succ, List.range_succ, List.map_append, List.append_assoc]
      rfl
    rw [hlast, quartets_append _ _ (by simp), ih, List.range_succ, List.map_append]
    rfl

/-- The placement checks on Quartets given by index: R144, and under `STRICT` the two of R145. -/
theorem padFault_map_range_iff (mode : PadCheck) (f : Nat → Quartet) (n : Nat) :
    padFault mode ((List.range n).map f) = true ↔
      ∃ k < n, ((f k).v0 = .pad ∨ (f k).v1 = .pad) ∨
        (mode = .strict ∧ (((f k).v2 = .pad ∧ ¬ (f k).v3 = .pad) ∨
          (k ≠ n - 1 ∧ ((f k).v2 = .pad ∨ (f k).v3 = .pad)))) := by
  have hinit : ((List.range n).map f).dropLast = (List.range (n - 1)).map f := by
    cases n with
    | zero => rfl
    | succ n => rw [List.range_succ, List.map_append]; exact List.dropLast_concat
  simp only [padFault, leadingPad, strictPadFault, hinit, List.any_map, Bool.or_eq_true, Bool.and_eq_true,
    List.any_eq_true, List.mem_range, Function.comp_apply, beq_iff_eq, bne_iff_ne]
  constructor
  · rintro (⟨k, hk, hlead⟩ | ⟨hmode, ⟨k, hk, hgap⟩ | ⟨k, hk, hinner⟩⟩)
    · exact ⟨k, hk, .inl hlead⟩
    · exact ⟨k, hk, .inr ⟨hmode, .inl hgap⟩⟩
    · exact ⟨k, by omega, .inr ⟨hmode, .inr ⟨by omega, hinner⟩⟩⟩
  · rintro ⟨k, hk, hlead | ⟨hmode, hgap | ⟨hne, hinner⟩⟩⟩
    · exact .inl ⟨k, hk, hlead⟩
    · exact .inr ⟨hmode, .inl ⟨k, hk, hgap⟩⟩
    · exact .inr ⟨hmode, .inr ⟨k, by omega, hinner⟩⟩

section
variable {s : State}

/-- `SymBad` in terms of the first pass (R140). -/
theorem symBad_inputBytes_iff : symBad ((inputBytes s).map classify) = true ↔ SymBad s := by
  simp only [symBad_map_classify, inputBytes, List.mem_map, List.mem_range, exists_exists_and_eq_and]

/-- Every input byte is valid when `SymBad` fails. -/
theorem classify_memRead_ne_none (h : ¬ SymBad s) {i : Nat} (hi : i < s.inLen.toNat) :
    classify (memRead s i) ≠ none :=
  fun hc => h ⟨i, hi, hc⟩

/-- R143: the Quartets of the input of a whole number of Quartets. -/
theorem quartets_inputBytes (h : ¬ LenBad s) :
    quartets ((inputBytes s).map mapByte) = (List.range (s.inLen.toNat / 4)).map (quartetAt s) := by
  have hlen : s.inLen.toNat = 4 * (s.inLen.toNat / 4) := by omega
  rw [inputBytes, List.map_map, hlen, quartets_map_range, ← hlen]
  rfl

/-- A valid input fails the placement checks exactly when `PadBad` holds (R144, R145). -/
theorem padFault_quartetAt_iff (h : ¬ SymBad s) :
    padFault s.cfg.padCheck ((List.range (s.inLen.toNat / 4)).map (quartetAt s)) = true ↔ PadBad s := by
  have hpad (k : Nat) (hk : k < s.inLen.toNat / 4) (j : Nat) (hj : j < 4) :
      mappedAt s (4 * k + j) = .pad ↔ PadAt s k j :=
    mapByte_eq_pad_iff (classify_memRead_ne_none h (by omega))
  rw [padFault_map_range_iff]
  refine exists_congr fun k => and_congr_right fun hk => ?_
  have h0 : (quartetAt s k).v0 = .pad ↔ PadAt s k 0 := hpad k hk 0 (by decide)
  have h1 : (quartetAt s k).v1 = .pad ↔ PadAt s k 1 := hpad k hk 1 (by decide)
  have h2 : (quartetAt s k).v2 = .pad ↔ PadAt s k 2 := hpad k hk 2 (by decide)
  have h3 : (quartetAt s k).v3 = .pad ↔ PadAt s k 3 := hpad k hk 3 (by decide)
  rw [h0, h1, h2, h3]

-- ## The result

/-- A result that is an error is raised. -/
theorem exec_decodeBytes_raised {k : ErrKind} (h : base64Decoder s.cfg (inputBytes s) = .error k) :
    ∃ t, exec .decodeBytes s = .next t ∧ Raised s t k.code :=
  ⟨_, exec_decodeBytes_eq h, raise_raised k s⟩

/-- The error that the first pass reports on an input that is not empty is the command's (R142, R150). -/
theorem exec_decodeBytes_checkInput {k : ErrKind} (hne : s.inLen ≠ 0)
    (h : checkInput s.cfg.errOrder (symBad ((inputBytes s).map classify)) (lenBad s.inLen.toNat) = some k) :
    ∃ t, exec .decodeBytes s = .next t ∧ Raised s t k.code := by
  rw [← inputBytes_length] at h
  exact exec_decodeBytes_raised (base64Decoder_of_checkInput (inputBytes_length_ne_zero hne) h)

/-- R150: on an input that passes `CheckInput` the decoder checks the placement of the pads and then decodes each
Quartet. -/
theorem base64Decoder_inputBytes (hne : s.inLen ≠ 0) (hsym : ¬ SymBad s) (hlen : ¬ LenBad s) :
    base64Decoder s.cfg (inputBytes s) =
      if padFault s.cfg.padCheck ((List.range (s.inLen.toNat / 4)).map (quartetAt s)) then
        .error .invalidPadPlacement
      else .ok ((List.range (s.inLen.toNat / 4)).flatMap fun k => decodeGroup (quartetAt s k)) := by
  have hvalid : ∀ b ∈ inputBytes s, classify b ≠ none := by
    intro b hb
    obtain ⟨i, hi, rfl⟩ := List.mem_map.mp hb
    exact classify_memRead_ne_none hsym (List.mem_range.mp hi)
  have hlen' : (inputBytes s).length % 4 = 0 := by
    rw [inputBytes_length]
    exact not_not.mp hlen
  rw [base64Decoder_of_valid (inputBytes_length_ne_zero hne) hvalid hlen', decodeSeq_eq_ite,
    quartets_inputBytes hlen, List.flatMap_map]

end

/-- Settles O24: the first pass decides between the two errors it can report, and on an input that passes it the
placement checks decide between the third and the Triplets. -/
theorem decodeBytesResult : Obligations.DecodeBytesResult := by
  intro s
  obtain ⟨hsymbol, hlength, -⟩ :=
    checkInput_iff s.cfg.errOrder (symBad ((inputBytes s).map classify)) (lenBad s.inLen.toNat)
  rw [symBad_inputBytes_iff, lenBad_iff] at hsymbol hlength
  refine ⟨fun hzero => ?_, fun hne hsym horder => ?_, fun hne hlen horder => ?_, fun hne hsym hlen hpad => ?_,
    fun hne hsym hlen hpad => ?_⟩
  · refine exec_decodeBytes_raised (base64Decoder_of_empty ?_)
    rw [inputBytes_length, hzero]
    rfl
  · exact exec_decodeBytes_checkInput hne (hsymbol.mpr ⟨hsym, horder⟩)
  · exact exec_decodeBytes_checkInput hne (hlength.mpr ⟨hlen, horder⟩)
  · refine exec_decodeBytes_raised (k := .invalidPadPlacement) ?_
    rw [base64Decoder_inputBytes hne hsym hlen, if_pos ((padFault_quartetAt_iff hsym).mpr hpad)]
  · refine ⟨_, exec_decodeBytes_eq (r := .ok _) ?_, complete_completed _ s⟩
    rw [base64Decoder_inputBytes hne hsym hlen, if_neg (mt (padFault_quartetAt_iff hsym).mp hpad)]

end Sys2Proof.Machine
end

section
/-! PROOFS. The result and frame of the text commands (43_text_commands.md R170 to R172). -/

namespace Sys2Proof.Machine

/-- A command whose result is an output completes with it. -/
theorem exec_completed {i : Instr} {s : State} {out : List Byte}
    (h : commandResult i s.cfg (inputBytes s) = .ok out) :
    ∃ t, exec i s = .next t ∧ Completed s t out :=
  ⟨_, (exec_eq_finish i s).trans (by rw [h]; rfl), complete_completed out s⟩

-- ## `ENCODE_TEXT`

/-- Settles O26: the blank test decides which of its two outputs the command completes with. -/
theorem encodeTextResult : Obligations.EncodeTextResult := by
  refine fun s => ⟨fun hblank => exec_completed ?_, fun hblank => exec_completed ?_⟩
  · rw [commandResult, if_pos ((blank_inputBytes_iff s).mpr hblank)]
  · rw [commandResult, if_neg (mt (blank_inputBytes_iff s).mp hblank)]

-- ## `DECODE_TEXT`

/-- The first pass does not report `NoInput` (R142). -/
theorem checkInput_ne_noInput (order : ErrOrder) (sb lb : Bool) : checkInput order sb lb ≠ some .noInput := by
  cases order with
  | symbolFirst => revert sb lb; decide
  | lengthFirst => revert sb lb; decide

/-- R150, R183: the decoder reports `NoInput` on the empty input only. -/
theorem base64Decoder_ne_noInput {c : Config} {inp : List Byte} (hne : inp.length ≠ 0) :
    base64Decoder c inp ≠ .error .noInput := by
  cases hcheck : checkInput c.errOrder (symBad (inp.map classify)) (lenBad inp.length) with
  | some k =>
    rw [base64Decoder_of_checkInput hne hcheck]
    rintro ⟨⟩
    exact checkInput_ne_noInput _ _ _ hcheck
  | none =>
    obtain ⟨hsym, hlen⟩ := checkInput_inp_eq_none_iff.mp hcheck
    rw [base64Decoder_of_valid hne hsym hlen, decodeSeq_eq_ite]
    split
    · exact nofun
    · exact nofun

/-- A command's code is 2 only when its result is `NoInput` (R180). -/
theorem finish_code_ne_noInput {r : Except ErrKind (List Byte)} (h : r ≠ .error .noInput) (s : State) :
    (finish r s).code ≠ 2 := by
  cases r with
  | ok out =>
    rw [finish, complete_code]
    decide
  | error k =>
    rw [finish, raise_code]
    cases k with
    | noInput => exact absurd rfl h
    | malformedLength | invalidSymbol | invalidPadPlacement | badCommand => decide

/-- The empty input is blank (R170). -/
theorem inLen_ne_zero_of_not_blank {s : State} (h : ¬ BlankInput s) : s.inLen ≠ 0 :=
  fun hzero => h (by rw [BlankInput, hzero]; exact nofun)

/-- Settles O27: on an input that is not blank the command has the decoder's result, and such an input is not
empty. -/
theorem decodeTextResult : Obligations.DecodeTextResult := by
  refine fun s => ⟨fun hblank => exec_completed ?_, fun hblank => ?_⟩
  · rw [commandResult, if_pos ((blank_inputBytes_iff s).mpr hblank)]
  · have hexec := exec_eq_finish .decodeText s
    rw [commandResult, if_neg (mt (blank_inputBytes_iff s).mp hblank)] at hexec
    have hne := inputBytes_length_ne_zero (inLen_ne_zero_of_not_blank hblank)
    exact ⟨_, hexec, exec_decodeBytes_eq rfl, finish_code_ne_noInput (base64Decoder_ne_noInput hne) s⟩

end Sys2Proof.Machine
end

section
/-! PROOFS. The round trip of the text commands (43_text_commands.md R170 to R172). -/

namespace Sys2Proof.Machine

-- ## The results

/-- R126, R170: no byte of an encoding is whitespace, so the encoding of an input that is not empty is not
blank. -/
theorem blank_encodeSeq {c : Config} (hc : c.wellFormed) {inp : List Byte} (hne : inp.length ≠ 0) :
    blank c.wsSet (encodeSeq inp) = false := by
  obtain ⟨-, -, -, hws, -⟩ := hc
  have hlen : (encodeSeq inp).length ≠ 0 := by
    rw [encodeSeq_length]
    omega
  obtain ⟨b, hb⟩ := List.exists_mem_of_length_pos (Nat.pos_of_ne_zero hlen)
  have hb' : b ∉ c.wsSet := fun hmem => classify_ne_none_of_mem_encodeSeq hb (hws b hmem)
  rw [blank, beq_eq_false_iff_ne.mpr hlen, Bool.false_or, List.all_eq_false]
  exact ⟨b, hb, by rwa [List.contains_iff_mem]⟩

/-- The output of `ENCODE_TEXT` is blank exactly when its input is, so `DECODE_TEXT` with the same whitespace set
undoes the way it was made. -/
theorem commandResult_decodeText_of_encodeText {c c' : Config} (hc : c.wellFormed) (hws : c'.wsSet = c.wsSet)
    {inp out : List Byte} (h : commandResult .encodeText c inp = .ok out) :
    commandResult .decodeText c' out = .ok inp := by
  rw [commandResult, Except.ok.injEq] at h
  rw [commandResult, hws]
  by_cases hblank : blank c.wsSet inp = true
  · rw [if_pos hblank] at h
    rw [← h, if_pos hblank]
  · have hne : inp.length ≠ 0 := fun hzero => hblank (by rw [blank, hzero]; rfl)
    rw [if_neg hblank] at h
    rw [← h, blank_encodeSeq hc hne, if_neg Bool.false_ne_true, base64Decoder_encodeSeq c' hne]

-- ## The output of one command as the input of the next

/-- With legal parameters `OUT_LEN` can count the output of every input that fits the buffer (assumption 2). -/
theorem commandResult_length_lt {i : Instr} {c : Config} {inp out : List Byte} (hc : c.wellFormed)
    (hinp : inp.length ≤ c.maxLen) (h : commandResult i c inp = .ok out) : out.length < 2 ^ 32 := by
  obtain ⟨-, hmaxOut, -⟩ := hc
  exact ((commandResult_length_le h).trans (encodedLength_le_maxOut hinp)).trans_lt hmaxOut

section
variable {s t s' : State} {out : List Byte}

/-- A state that takes over an output which `OUT_LEN` can count has it as its input. -/
theorem Completed.inputBytes_eq_output (h : Completed s t out) (hfits : out.length < 2 ^ 32)
    (hlen : s'.inLen = t.outLen) (hbytes : ∀ j < t.outLen.toNat, t.outMem.read? j = some (memRead s' j)) :
    inputBytes s' = out := by
  have hout : t.outLen.toNat = out.length := by
    rw [h.outLen, BitVec.toNat_ofNat, Nat.mod_eq_of_lt hfits]
  refine inputBytes_eq (hlen ▸ hout) fun j hj => ?_
  rw [← h.bytes, hbytes j (hout ▸ hj)]

/-- An output that is the input of a state has its length and its bytes. -/
theorem Completed.output_eq_inputBytes (h : Completed s t (inputBytes s')) :
    t.outLen = s'.inLen ∧ ∀ j < s'.inLen.toNat, t.outMem.read? j = some (memRead s' j) := by
  refine ⟨?_, fun j hj => ?_⟩
  · rw [h.outLen, inputBytes_length, BitVec.ofNat_toNat, BitVec.setWidth_eq]
  · rw [h.bytes, List.getElem?_eq_getElem (by rwa [inputBytes_length]), inputBytes_getElem]

end

/-- Settles O28: the second input is the output of `ENCODE_TEXT`, from which `DECODE_TEXT` has the first input as
its result. -/
theorem decodeTextInvertsEncodeText : Obligations.DecodeTextInvertsEncodeText := by
  intro s₁ t₁ s₂ hcfg hle hexec hws hlen hbytes
  obtain ⟨out, hout⟩ : ∃ out, commandResult .encodeText s₁.cfg (inputBytes s₁) = .ok out := ⟨_, rfl⟩
  obtain ⟨t, hexec', hcompleted⟩ := exec_completed hout
  cases hexec'.symm.trans hexec
  have hfits := commandResult_length_lt hcfg (inputBytes_length s₁ ▸ hle) hout
  have hinput : inputBytes s₂ = out := hcompleted.inputBytes_eq_output hfits hlen hbytes
  have hdecoded : commandResult .decodeText s₂.cfg (inputBytes s₂) = .ok (inputBytes s₁) :=
    hinput ▸ commandResult_decodeText_of_encodeText hcfg hws hout
  obtain ⟨t₂, hexec₂, hcompleted₂⟩ := exec_completed hdecoded
  exact ⟨t₂, hexec₂, hcompleted₂.code, hcompleted₂.output_eq_inputBytes⟩

end Sys2Proof.Machine
end

section
/-! PROOFS. How every command completes, and the idle block (60_exceptions.md R180, R183, R192). -/

namespace Sys2Proof.Machine

-- ## The codes of each command

/-- R180: `ENCODE_BYTES` reports `NoInput` or succeeds. -/
theorem exec_encodeBytes_code (s : State) :
    ∃ t, exec .encodeBytes s = .next t ∧ (t.code = 1 ∨ t.code = 2) := by
  obtain ⟨hempty, hencoded⟩ := encodeBytesResult s
  by_cases hlen : s.inLen = 0
  · obtain ⟨t, hexec, hraised⟩ := hempty hlen
    exact ⟨t, hexec, .inr hraised.code⟩
  · obtain ⟨t, hexec, hcompleted, -⟩ := hencoded hlen
    exact ⟨t, hexec, .inl hcompleted.code⟩

/-- R142: whichever of the two checks comes first, an input that is bad has one that is reported. -/
theorem symBad_or_lenBad_reported {s : State} (h : SymBad s ∨ LenBad s) :
    (SymBad s ∧ (s.cfg.errOrder = .symbolFirst ∨ ¬ LenBad s)) ∨
      (LenBad s ∧ (s.cfg.errOrder = .lengthFirst ∨ ¬ SymBad s)) := by
  cases horder : s.cfg.errOrder with
  | symbolFirst =>
    by_cases hsym : SymBad s
    · exact .inl ⟨hsym, .inl rfl⟩
    · exact .inr ⟨h.resolve_left hsym, .inr hsym⟩
  | lengthFirst =>
    by_cases hlen : LenBad s
    · exact .inr ⟨hlen, .inl rfl⟩
    · exact .inl ⟨h.resolve_right hlen, .inr hlen⟩

/-- R180: `DECODE_BYTES` reports one of the four kinds of a bad input or succeeds, never `BadCommand`. -/
theorem exec_decodeBytes_code (s : State) : ∃ t, exec .decodeBytes s = .next t ∧
    (t.code = 1 ∨ t.code = 2 ∨ t.code = 3 ∨ t.code = 4 ∨ t.code = 5) := by
  obtain ⟨hempty, hsymbol, hlength, hpadding, hdecoded⟩ := decodeBytesResult s
  by_cases hne : s.inLen = 0
  · obtain ⟨t, hexec, hraised⟩ := hempty hne
    exact ⟨t, hexec, .inr (.inl hraised.code)⟩
  by_cases hbad : SymBad s ∨ LenBad s
  · obtain ⟨hsym, horder⟩ | ⟨hlen, horder⟩ := symBad_or_lenBad_reported hbad
    · obtain ⟨t, hexec, hraised⟩ := hsymbol hne hsym horder
      exact ⟨t, hexec, .inr (.inr (.inr (.inl hraised.code)))⟩
    · obtain ⟨t, hexec, hraised⟩ := hlength hne hlen horder
      exact ⟨t, hexec, .inr (.inr (.inl hraised.code))⟩
  obtain ⟨hsym, hlen⟩ := not_or.mp hbad
  by_cases hpad : PadBad s
  · obtain ⟨t, hexec, hraised⟩ := hpadding hne hsym hlen hpad
    exact ⟨t, hexec, .inr (.inr (.inr (.inr hraised.code)))⟩
  · obtain ⟨t, hexec, hcompleted⟩ := hdecoded hne hsym hlen hpad
    exact ⟨t, hexec, .inl hcompleted.code⟩

/-- R171, R180: `ENCODE_TEXT` always succeeds. -/
theorem exec_encodeText_code (s : State) : ∃ t, exec .encodeText s = .next t ∧ t.code = 1 := by
  obtain ⟨t, hexec, hcompleted⟩ := exec_completed (i := .encodeText) (s := s) rfl
  exact ⟨t, hexec, hcompleted.code⟩

/-- R172, R180: `DECODE_TEXT` has the codes of `DECODE_BYTES` without `NoInput`, since an empty input is blank. -/
theorem exec_decodeText_code (s : State) : ∃ t, exec .decodeText s = .next t ∧
    (t.code = 1 ∨ t.code = 3 ∨ t.code = 4 ∨ t.code = 5) := by
  obtain ⟨hpassed, hdecoded⟩ := decodeTextResult s
  by_cases hblank : BlankInput s
  · obtain ⟨t, hexec, hcompleted⟩ := hpassed hblank
    exact ⟨t, hexec, .inl hcompleted.code⟩
  · obtain ⟨t, htext, hbytes, hnoInput⟩ := hdecoded hblank
    obtain ⟨t', hbytes', hcode⟩ := exec_decodeBytes_code s
    cases hbytes.symm.trans hbytes'
    exact ⟨t, htext, hcode.imp_right fun h => h.resolve_left hnoInput⟩

/-- Settles O29: each command's clause is read off its result. -/
theorem everyCommandCompletesWithItsOwnCodes : Obligations.EveryCommandCompletesWithItsOwnCodes :=
  fun s => ⟨exec_encodeBytes_code s, exec_decodeBytes_code s, exec_encodeText_code s, exec_decodeText_code s⟩

-- ## The idle block

/-- Settles O41: with an empty queue the step serves no access. -/
theorem idleBlockHoldsItsState : Obligations.IdleBlockHoldsItsState := by
  intro s hidle
  simp only [step, serveHost, hidle]

end Sys2Proof.Machine
end

section
/-! PROOFS. The reset values and the host's duties (70_reset_and_hazards.md R200, R205). -/

namespace Sys2Proof.Machine

-- ## The interface (R205 duties 1 to 3)

/-- An outcome due to an access: a next state to one inside the interface, and a refusal to one outside it. -/
def AnswersAsDue (inside : Bool) (o : Host.Outcome State Fault Refusal) : Prop :=
  match inside with
  | true  => ∃ t, o = .next t
  | false => ∃ r, o = .refused r

/-- The outcome tells which of the two kinds the access is. -/
theorem AnswersAsDue.iff {inside : Bool} {o : Host.Outcome State Fault Refusal} (h : AnswersAsDue inside o) :
    ((∃ r, o = .refused r) ↔ inside = false) ∧ ((∃ t, o = .next t) ↔ inside = true) := by
  cases inside with
  | true => obtain ⟨t, rfl⟩ := h; simp
  | false => obtain ⟨r, rfl⟩ := h; simp

/-- A guard that refuses outside its condition answers as due. -/
theorem answersAsDue_guard (p : Prop) [Decidable p] (t : State) (r : Refusal) :
    AnswersAsDue (decide p) (if p then .next t else .refused r) := by
  by_cases hp : p
  · rw [if_pos hp, decide_eq_true hp]; exact ⟨t, rfl⟩
  · rw [if_neg hp, decide_eq_false hp]; exact ⟨r, rfl⟩

/-- R26, R51: a CSR write in the right shape is refused only for an `IN_LEN` above `P_MAX_LEN`. -/
theorem writeCsr_answersAsDue (off : Nat) (v : Word) (s : State) :
    AnswersAsDue (!(off == csrOffset .inLen && decide (s.cfg.maxLen < v.toNat))) (writeCsr off v s) := by
  by_cases h8 : off = csrOffset .inLen
  · subst h8
    have hguard : AnswersAsDue (decide (v.toNat ≤ s.cfg.maxLen)) (writeCsr (csrOffset .inLen) v s) :=
      answersAsDue_guard _ _ _
    simpa [← decide_not] using hguard
  · rw [beq_eq_false_iff_ne.mpr h8]
    by_cases h0 : off = csrOffset .cmd
    · subst h0
      obtain ⟨r, hfin⟩ := writeCmd_finish v s
      exact ⟨_, hfin⟩
    · exact ⟨s, writeCsr_ignored v s h0 h8⟩

/-- R205: an access gets a next state inside the interface and a refusal outside it. -/
theorem hostAccess_answersAsDue (a : HostAccess) (s : State) :
    AnswersAsDue (a.wellFormed s.cfg) (hostAccess a s) := by
  cases a with
  | csrRead w off =>
    simpa [HostAccess.wellFormed, hostAccess] using
      answersAsDue_guard (csrShapeOk w off = true) (s.reply (.word (csrValue s off))) .csrAccessShape
  | csrWrite w off v =>
    by_cases hshape : w = .word ∧ off % 4 = 0
    · obtain ⟨rfl, halign⟩ := hshape
      rw [HostAccess.wellFormed, (csrShapeOk_iff .word off).mpr ⟨rfl, halign⟩, Bool.true_and,
        hostAccess_csrWrite_word s v halign]
      exact writeCsr_answersAsDue off v s
    · rw [HostAccess.wellFormed, csrShapeOk_eq_false hshape, Bool.false_and]
      exact ⟨_, (hostAccess_csr_refused s v hshape).2⟩
  | inRead i => exact answersAsDue_guard (i < s.cfg.maxLen) _ _
  | inWrite i v => exact answersAsDue_guard (i < s.cfg.maxLen) _ _
  | outRead j => exact answersAsDue_guard (j < s.cfg.maxOut) _ _
  | outWrite j v => exact answersAsDue_guard (j < s.cfg.maxOut) _ _
  | reset => exact ⟨_, rfl⟩

/-- Settles O36: the step serves the first access, which is answered as R205 says. -/
theorem refusedExactlyOutsideTheInterface : Obligations.RefusedExactlyOutsideTheInterface := by
  intro s a rest hp
  rw [step_of_pending hp]
  exact (hostAccess_answersAsDue a { s with pending := rest }).iff

-- ## The reset values (R200)

/-- The reset value of `STATUS` has `CODE` 0 and the reserved bits 0 (R25, R200). -/
theorem zeroStatus_fields : (0 : Word).extractLsb' 0 3 = 0 ∧ (0 : Word).extractLsb' 3 29 = 0 := by decide

/-- Settles O45: the reset event serves `applyReset`, whose values are those of `State.reset`. -/
theorem resetGivesTheResetValues : Obligations.ResetGivesTheResetValues := by
  obtain ⟨hcode, hrsvd⟩ := zeroStatus_fields
  refine ⟨fun s rest hp => ⟨applyReset { s with pending := rest }, step_of_pending hp, ?_⟩, ?_⟩
  · exact ⟨hcode, hrsvd, rfl, rfl, csrValue_cmd _, Memory.read?_nil, Memory.read?_nil, rfl⟩
  · exact ⟨hcode, hrsvd, rfl, rfl, Memory.read?_nil, Memory.read?_nil⟩

/-- The parameters that `State.reset` is written with are legal (R5). -/
theorem configDefault_wellFormed : Config.default.wellFormed := by decide

/-- Settles O46: the reset event meets the invariant for legal parameters, and it leaves `State.reset` as it
is but for the stamp of the unknown input bytes, of which the invariant does not speak. -/
theorem resetMeetsTheInvariant : Obligations.ResetMeetsTheInvariant where
  __ := inv_applyReset (s := State.reset) configDefault_wellFormed

end Sys2Proof.Machine
end
